-- ==== Sys2Proof/Word.lean ====
section
/-! DEFINITION. The word types. Every value is unsigned (00_scope.md R8); no operation sign-extends. -/

namespace Sys2Proof

/-- An 8-bit byte: HDR and each output lane (10_state.md R12). -/
abbrev Byte := BitVec 8

/-- The block's data input VALUE, an unsigned 32-bit integer (10_state.md R9). -/
abbrev Word := BitVec 32

/-- A request word (30_encoding.md R30): OP in bit 32, VALUE in bits 31:0. -/
abbrev RequestWord := BitVec 33

/-- The code of LEN, 3 bits (10_state.md R12, decision D6). -/
abbrev LenCode := BitVec 3

/-- The six output lanes BYTE[0..5] (10_state.md R13); index i is sequence position i (20_memory.md R22). -/
abbrev Lanes := Vector Byte 6

end Sys2Proof
end

