-- ==== Sys2Proof/Syntax.lean ====
section
/-! DEFINITION. The whole syntax: the two requests (spec/opcode_table.json), the host's actions (10_state.md R19,
30_encoding.md R40) and the assembler's lines (30_encoding.md R40, R41). -/

namespace Sys2Proof

/-- The block's requests, one constructor per row of spec/opcode_table.json (30_encoding.md R31). Their one operand is
VALUE, used unchanged (R32); every VALUE is legal (R33). -/
inductive Instr where
  /-- OP = 0: the range classifier (40_classifier.md R43). -/
  | classify (value : Word)
  /-- OP = 1: the bit-packer (41_encoder.md R53). -/
  | encode (value : Word)
  deriving DecidableEq, Repr

/-- The operand VALUE of a request (30_encoding.md R32). -/
def Instr.value : Instr → Word
  | .classify v => v
  | .encode v => v

/-- The names of RESULT's fields (10_state.md R12, R19): KIND, STATUS, LEN, HDR and BYTE[i] for i in 0..5. -/
inductive Field where
  | kind
  | status
  | len
  | hdr
  | lane (i : Fin 6)
  deriving DecidableEq, Repr

/-- What the host can do to the block (10_state.md R19): submit a request word, read a field, assert reset. It has no
move that writes RESULT or a lane. READ and RESET are not requests and have no encoding (30_encoding.md R40). -/
inductive HostAction where
  | request (w : RequestWord)
  | read (f : Field)
  | reset
  deriving DecidableEq, Repr

/-- Why a string of bits is no request word. R33 makes every 33-bit word legal, so width is the only reason. -/
inductive DecodeError where
  /-- The bits do not fit the 33 bits of a request word (30_encoding.md R30). -/
  | widerThanRequest
  deriving DecidableEq, Repr

/-- A value literal of the assembler (30_encoding.md R40), most significant digit first: hexadecimal (written with the
prefix 0x) or decimal. DESIGN CHOICE (log entry 6), safe: digits are numbers; the spelling of a digit is left out. -/
inductive Literal where
  | hex (digits : List (Fin 16))
  | dec (digits : List (Fin 10))
  deriving DecidableEq, Repr

/-- A field name as the assembler's READ writes it; the index of BYTE[i] is a plain number there. -/
inductive AsmField where
  | kind
  | status
  | len
  | hdr
  | byte (i : Nat)
  deriving DecidableEq, Repr

/-- A line of the assembler (30_encoding.md R40). There are no pseudo-instructions or aliases (R41). -/
inductive AsmLine where
  | classify (value : Literal)
  | encode (value : Literal)
  | read (f : AsmField)
  | reset
  deriving DecidableEq, Repr

/-- Why the assembler refuses a line. -/
inductive AsmError where
  /-- A literal outside 0..0xFFFFFFFF "is refused by the assembler" (30_encoding.md R40). -/
  | literalOutOfRange
  /-- A literal without a digit is no literal. -/
  | literalWithoutDigits
  /-- BYTE[i] with i outside 0..5 names no field (10_state.md R12). -/
  | noSuchLane
  deriving DecidableEq, Repr

end Sys2Proof
end

