-- ==== Sys2Proof/WellFormed.lean ====
section
/-! DEFINITION. Well-formedness. An Instr needs no check: every 32-bit VALUE is a legal operand and both OP codes are
defined (30_encoding.md R33), and the type Word holds exactly those values, so every term of Instr is well formed.
The checks are about what comes from outside: a number offered as a request word (R30), a literal (R40), a lane index
(10_state.md R12). -/

namespace Sys2Proof

/-- A number is a request word when it fits 33 bits (30_encoding.md R30). -/
def requestFits (w : Nat) : Bool := w < 2 ^ 33

/-- The digits of a literal, most significant first, read in a base. -/
def digitsValue (base : Nat) : List Nat → Nat → Nat
  | [], acc => acc
  | d :: ds, acc => digitsValue base ds (acc * base + d)

/-- The number a literal writes (30_encoding.md R40: hexadecimal or decimal). -/
def literalValue : Literal → Nat
  | .hex ds => digitsValue 16 (ds.map Fin.val) 0
  | .dec ds => digitsValue 10 (ds.map Fin.val) 0

/-- A literal has a digit. -/
def literalHasDigits : Literal → Bool
  | .hex ds => !ds.isEmpty
  | .dec ds => !ds.isEmpty

/-- A literal lies in 0..0xFFFFFFFF (30_encoding.md R40). -/
def literalInRange (l : Literal) : Bool := literalValue l ≤ 0xFFFFFFFF

/-- A literal the assembler takes. -/
def literalOk (l : Literal) : Bool := literalHasDigits l && literalInRange l

/-- A field name names a field of RESULT: BYTE[i] exists for i in 0..5 only (10_state.md R12). -/
def asmFieldOk : AsmField → Bool
  | .byte i => i < 6
  | _ => true

/-- A line the assembler takes (30_encoding.md R40). -/
def asmLineOk : AsmLine → Bool
  | .classify l => literalOk l
  | .encode l => literalOk l
  | .read f => asmFieldOk f
  | .reset => true

end Sys2Proof
end

