-- ==== Sys2Proof/Decode.lean ====
section
/-! DEFINITION. Decoding a request word, encoding an instruction back, and the assembler.
A request is one 33-bit number (30_encoding.md R30); VALUE has no byte order at the interface (20_memory.md R23), so the
decoder reads a number, and no layout in bytes exists. -/

namespace Sys2Proof

/-- OP, bit 32 of the request word (30_encoding.md R30). -/
def requestOp (w : RequestWord) : Bool := w.getLsbD 32

/-- VALUE, bits 31:0 of the request word, unchanged (30_encoding.md R30, R32). -/
def requestValue (w : RequestWord) : Word := w.extractLsb 31 0

/-- The decoder: OP selects the operation (30_encoding.md R31). Total: every request word is legal (R33). -/
def decode (w : RequestWord) : Instr :=
  match requestOp w with
  | false => .classify (requestValue w)
  | true => .encode (requestValue w)

/-- The request word of OP and VALUE: the concatenation (OP, VALUE) (30_encoding.md R30, R41). -/
def makeRequest (op : BitVec 1) (value : Word) : RequestWord := op ++ value

/-- The encoder, written from the OP table of 30_encoding.md R31. -/
def encodeRequest : Instr → RequestWord
  | .classify v => makeRequest 0#1 v
  | .encode v => makeRequest 1#1 v

/-- The raw reader: a number of nbits bits, as a request word. Bits above nbits count as 0. What does not fit 33 bits is
refused by name, never truncated (30_encoding.md R30; DESIGN CHOICE, log entry 5, safe). -/
def requestOfBits (nbits w : Nat) : Except DecodeError RequestWord :=
  if requestFits (w % 2 ^ nbits) then .ok (BitVec.ofNat 33 (w % 2 ^ nbits)) else .error .widerThanRequest

/-- The decoder on raw bits: total, refusing by name. -/
def decodeBits (nbits w : Nat) : Except DecodeError Instr :=
  match requestOfBits nbits w with
  | .ok r => .ok (decode r)
  | .error e => .error e

/-- The host's question about an opcode-table row: what the decoder reads from bits numbered as the table numbers them
(bit 0 is VALUE's least significant bit, bit 32 is OP). -/
def decodeTableWord (nbits w : Nat) : Option Instr :=
  match decodeBits nbits w with
  | .ok i => some i
  | .error _ => none

/-- The assembler's reading of a literal: refused when out of range, never truncated (30_encoding.md R40). -/
def assembleLiteral (l : Literal) : Except AsmError Word :=
  if literalHasDigits l then
    if literalInRange l then .ok (BitVec.ofNat 32 (literalValue l)) else .error .literalOutOfRange
  else .error .literalWithoutDigits

/-- The assembler's reading of a field name (10_state.md R12, 30_encoding.md R40). -/
def assembleField : AsmField → Except AsmError Field
  | .kind => .ok .kind
  | .status => .ok .status
  | .len => .ok .len
  | .hdr => .ok .hdr
  | .byte i => if h : i < 6 then .ok (.lane ⟨i, h⟩) else .error .noSuchLane

/-- The assembler (30_encoding.md R40, R41): each mnemonic gives exactly one request word; READ and RESET are host
actions without an encoding. -/
def assemble : AsmLine → Except AsmError HostAction
  | .classify l => (assembleLiteral l).map fun v => .request (makeRequest 0#1 v)
  | .encode l => (assembleLiteral l).map fun v => .request (makeRequest 1#1 v)
  | .read f => (assembleField f).map .read
  | .reset => .ok .reset

/-- A row of the opcode table: a request word w belongs to it when w AND mask = pattern (spec/opcode_table.json). -/
structure OpcodeRow where
  pattern : RequestWord
  mask : RequestWord
  deriving DecidableEq, Repr

/-- Row CLASSIFY of spec/opcode_table.json (40_classifier.md R43). -/
def classifyRow : OpcodeRow := ⟨0x000000000#33, 0x100000000#33⟩

/-- Row ENCODE of spec/opcode_table.json (41_encoder.md R53). -/
def encodeRow : OpcodeRow := ⟨0x100000000#33, 0x100000000#33⟩

/-- A request word belongs to a row of the opcode table. -/
def rowMatches (r : OpcodeRow) (w : RequestWord) : Bool := w &&& r.mask == r.pattern

/-! One word per constructor, written out from 30_encoding.md R30 and R31: OP in bit 32, VALUE 0x800 in bits 31:0. -/

theorem decode_word_classify_800 :
    decode 0b0_00000000_00000000_00001000_00000000#33 = .classify 0x800#32 := by decide

theorem decode_word_encode_800 :
    decode 0b1_00000000_00000000_00001000_00000000#33 = .encode 0x800#32 := by decide

end Sys2Proof
end

