-- ==== Sys2Proof/Machine/State.lean ====
section
/-! DEFINITION. The machine's state. The block's one piece of architectural state is RESULT (10_state.md R10, R18); the
other two fields of State are the host's side of the port, so that one deterministic step can run a host's actions. -/

namespace Sys2Proof.Machine

/-- A length class, 1..6 (10_state.md R14). The codes 0 and 7 cannot be held (93_implementation_defined.md section 2). -/
inductive LengthClass where
  | one
  | two
  | three
  | four
  | five
  | six
  deriving DecidableEq, Repr

/-- A header pattern, one of the six of 40_classifier.md R44; no other HDR value can be held (30_encoding.md R34,
93_implementation_defined.md section 2). -/
inductive Header where
  | x00
  | xC0
  | xE0
  | xF0
  | xF8
  | xFC
  deriving DecidableEq, Repr

/-- Which operation ran: the kind an OVF result records (10_state.md R10). -/
inductive OpKind where
  | classify
  | encode
  deriving DecidableEq, Repr

/-- RESULT (10_state.md R10): the outcome of the most recent operation, in one of four forms. Its fields KIND, STATUS,
LEN, HDR and BYTE[0..5] (R12) are views of the form (Machine/Ops.lean). -/
inductive Result where
  /-- NONE: no operation since reset. -/
  | none
  /-- CLS(len, hdr): CLASSIFY succeeded. -/
  | cls (len : LengthClass) (hdr : Header)
  /-- ENC(len, bytes): ENCODE succeeded. -/
  | enc (len : LengthClass) (bytes : Lanes)
  /-- OVF(kind): the operation failed with Overflow. -/
  | ovf (kind : OpKind)
  deriving DecidableEq, Repr

/-- What a READ that meets a value returns: the field's value, at the field's width (10_state.md R12; 20_memory.md R25). -/
inductive FieldValue where
  | kind (code : BitVec 2)
  | status (code : BitVec 1)
  | len (code : LenCode)
  | hdr (byte : Byte)
  | lane (i : Fin 6) (byte : Byte)
  deriving DecidableEq, Repr

/-- What a READ gives back to the host (10_state.md R19): the field's value, or the fault "no value" of a field that holds
NOVALUE (R11), which carries no number. -/
inductive ReadAnswer where
  | value (v : FieldValue)
  | noValue (f : Field)
  deriving DecidableEq, Repr

/-- The machine's state. -/
structure State where
  /-- RESULT, the block's one architectural register (10_state.md R10). -/
  result : Result
  /-- The host's actions not yet performed, the next one first (10_state.md R19; 20_memory.md R26). The model's own
  field: DESIGN CHOICE (log entry 1), safe. -/
  pending : List HostAction
  /-- What each READ so far gave back, oldest first (70_reset_and_hazards.md R78). The model's own field: DESIGN CHOICE
  (log entry 2), safe. -/
  reads : List ReadAnswer
  deriving DecidableEq, Repr

/-- Why the machine stops with a fault. -/
inductive Fault where
  /-- "no value": a READ of a field that holds NOVALUE (10_state.md R11). Raised by the host's READ (hostRead) only.
  Safe: the spec's own rule, which errs toward unprovable. The fault carries the state it leaves: RESULT as it was, the
  READ taken from the waiting actions, and its fault among the answers. What the host does from there is the spec's
  open point; the model's choice is that a list of actions goes on (performAll; DESIGN CHOICE, log entry 12). -/
  | noValue (f : Field) (left : State)
  deriving DecidableEq, Repr

/-- Why an instruction is refused. -/
inductive Refusal where
  /-- An instruction without a meaning, by its mnemonic. Raised by no arm of exec: both requests have their meaning.
  Safe: a refusal proves nothing about the hardware. -/
  | notModelled (mnemonic : String)
  deriving DecidableEq, Repr

/-- The machine right after reset (10_state.md R20, 70_reset_and_hazards.md R74): RESULT = NONE. No host action is
waiting and no READ has been answered (DESIGN CHOICE, log entries 1 and 2, safe). -/
def State.reset : State where
  result := .none
  pending := []
  reads := []

end Sys2Proof.Machine
end

