-- ==== Sys2Proof/Machine/Operands.lean ====
section
/-! DEFINITION. The one operand form, VALUE (30_encoding.md R32), and the bit operations the two requests apply to it.
Every value is unsigned; shifts are logical (00_scope.md R8). -/

namespace Sys2Proof.Machine

/-- The Overflow test: bit 31 of VALUE (40_classifier.md R43, R45). -/
def overflows (v : Word) : Bool := v.getLsbD 31

/-- The continuation byte of the remaining value: 0x80 | (rem & 0x3F), an 8-bit result (41_encoder.md R53, R56;
30_encoding.md R36). -/
def continuationByte (rem : Word) : Byte := 0x80#8 ||| (rem &&& 0x3F#32).setWidth 8

/-- The remaining value after one chunk: a logical right shift by 6 (41_encoder.md R56). -/
def dropChunk (rem : Word) : Word := rem >>> 6

/-- The header byte: H | rem[7:0] (41_encoder.md R53, R57). -/
def headerByte (h : Byte) (rem : Word) : Byte := h ||| rem.extractLsb 7 0

/-- Six lanes of 0x00 (41_encoder.md R55). -/
def zeroLanes : Lanes := Vector.replicate 6 0x00#8

end Sys2Proof.Machine
end

