-- ==== Sys2Proof/Machine/Flags.lean ====
section
/-! DEFINITION. The codes of RESULT's fields (30_encoding.md R34). KIND and STATUS are the block's only flags
(10_state.md R18). -/

namespace Sys2Proof.Machine

/-- The KIND code of an operation: CLASSIFY 1, ENCODE 2 (30_encoding.md R34). -/
def opKindCode : OpKind → BitVec 2
  | .classify => 1#2
  | .encode => 2#2

/-- KIND (10_state.md R12): it has a value in every form, NONE (0) among them. -/
def kindCode : Result → BitVec 2
  | .none => 0#2
  | .cls _ _ => opKindCode .classify
  | .enc _ _ => opKindCode .encode
  | .ovf k => opKindCode k

/-- STATUS (10_state.md R12): OK 0, OVERFLOW 1 (30_encoding.md R34), NOVALUE in NONE. -/
def statusCode : Result → Option (BitVec 1)
  | .none => none
  | .cls _ _ => some 0#1
  | .enc _ _ => some 0#1
  | .ovf _ => some 1#1

/-- A length class as a number, 1..6 (10_state.md R14). -/
def lengthNat : LengthClass → Nat
  | .one => 1
  | .two => 2
  | .three => 3
  | .four => 4
  | .five => 5
  | .six => 6

/-- The LEN code of a length class: plain binary (30_encoding.md R34). -/
def lengthCode (l : LengthClass) : LenCode := BitVec.ofNat 3 (lengthNat l)

/-- The HDR code of a header pattern: the byte itself (30_encoding.md R34). -/
def headerCode : Header → Byte
  | .x00 => 0x00#8
  | .xC0 => 0xC0#8
  | .xE0 => 0xE0#8
  | .xF0 => 0xF0#8
  | .xF8 => 0xF8#8
  | .xFC => 0xFC#8

end Sys2Proof.Machine
end

