-- ==== Sys2Proof/Machine/Ops.lean ====
section
/-! DEFINITION. The named operations over the state. RESULT is read and written here only. -/

namespace Sys2Proof.Machine

/-- Write the whole RESULT register in one step (00_scope.md R8; 20_memory.md R25). -/
def writeResult (r : Result) (s : State) : State := { s with result := r }

/-- A request that succeeds: RESULT <- r, and the request is complete (40_classifier.md R43, 41_encoder.md R53). -/
def completeWith (r : Result) (s : State) : Host.Outcome State Fault Refusal := .next (writeResult r s)

/-- Raise Overflow(k), the block's one exception (60_exceptions.md R66): RESULT <- OVF(k), and the operation ends. It is
no trap: nothing is saved, no mode changes, no handler runs (R68), so there is no return from it either (R71). -/
def raiseOverflow (k : OpKind) (s : State) : Host.Outcome State Fault Refusal := .next (writeResult (.ovf k) s)

/-- LEN (10_state.md R12); none is NOVALUE. -/
def lenField : Result → Option LenCode
  | .none => none
  | .cls l _ => some (lengthCode l)
  | .enc l _ => some (lengthCode l)
  | .ovf _ => none

/-- HDR (10_state.md R12); none is NOVALUE. ENCODE does not expose the header (decision D4). -/
def hdrField : Result → Option Byte
  | .none => none
  | .cls _ h => some (headerCode h)
  | .enc _ _ => none
  | .ovf _ => none

/-- BYTE[i] (10_state.md R12, R13); none is NOVALUE. -/
def laneField (i : Fin 6) : Result → Option Byte
  | .none => none
  | .cls _ _ => none
  | .enc _ b => some b[i]
  | .ovf _ => none

/-- A field of RESULT by name; none is NOVALUE (10_state.md R11, R12). -/
def readField (r : Result) : Field → Option FieldValue
  | .kind => some (.kind (kindCode r))
  | .status => (statusCode r).map .status
  | .len => (lenField r).map .len
  | .hdr => (hdrField r).map .hdr
  | .lane i => (laneField i r).map (.lane i)

/-- What a READ of a field gives back: its value, or "no value" (10_state.md R11, R19). -/
def answerOf (r : Result) (f : Field) : ReadAnswer :=
  match readField r f with
  | some v => .value v
  | none => .noValue f

/-- An answer goes back to the host (10_state.md R19). -/
def answerRead (a : ReadAnswer) (s : State) : State := { s with reads := s.reads ++ [a] }

/-- The host reads a field (10_state.md R19): it gets the value, or a fault if the field holds NOVALUE (R11). Reading
has no side effect on the block (20_memory.md R25), so the fault leaves RESULT as it was. The spec does not say whether
the host goes on after it: the fault carries the state from which it can (DESIGN CHOICE, log entry 12). -/
def hostRead (f : Field) (s : State) : Host.Outcome State Fault Refusal :=
  match readField s.result f with
  | some v => .next (answerRead (.value v) s)
  | none => .fault (.noValue f (answerRead (.noValue f) s))

/-- The host asserts reset (10_state.md R19, R20; 70_reset_and_hazards.md R74): RESULT <- NONE, and nothing else of the
block exists to reset. The host keeps its own actions and answers (DESIGN CHOICE, log entry 4, safe). -/
def hostReset (s : State) : State := writeResult .none s

/-- The host's next action, with the state after it is taken (20_memory.md R26: in order, one at a time). -/
def takeAction (s : State) : Option (HostAction × State) :=
  match s.pending with
  | [] => none
  | a :: rest => some (a, { s with pending := rest })

/-- Put a request word in front of the waiting actions, so that it is the next one performed. -/
def placeRequest (w : RequestWord) (s : State) : State := { s with pending := .request w :: s.pending }

end Sys2Proof.Machine
end

