-- ==== Sys2Proof/Machine/Classifier.lean ====
section
/-! DEFINITION. The range classifier and the request CLASSIFY (40_classifier.md). -/

namespace Sys2Proof.Machine

/-- ClassTable(v) (40_classifier.md R44), defined for v <= 0x7FFFFFFF only; its callers test for Overflow first. Its tests
are of the inclusive upper ends (90_conflicts.md C3). -/
def classTable (v : Word) : LengthClass × Header :=
  if v ≤ 0x0000007F#32 then (.one, .x00)
  else if v ≤ 0x000007FF#32 then (.two, .xC0)
  else if v ≤ 0x0000FFFF#32 then (.three, .xE0)
  else if v ≤ 0x001FFFFF#32 then (.four, .xF0)
  else if v ≤ 0x03FFFFFF#32 then (.five, .xF8)
  else (.six, .xFC)

/-- The classification of a value: none is Overflow, tested first (40_classifier.md R45; 60_exceptions.md R70). Used by
CLASSIFY and inside ENCODE (41_encoder.md R54). -/
def classification (v : Word) : Option (LengthClass × Header) :=
  if overflows v then none else some (classTable v)

/-- CLASSIFY (40_classifier.md R43). -/
def execClassify (v : Word) (s : State) : Host.Outcome State Fault Refusal :=
  match classification v with
  | none => raiseOverflow .classify s
  | some (l, h) => completeWith (.cls l h) s

end Sys2Proof.Machine
end

