-- ==== Sys2Proof/Machine/Packer.lean ====
section
/-! DEFINITION. The bit-packer and the request ENCODE (41_encoder.md). -/

namespace Sys2Proof.Machine

/-- Step 3 of ENCODE (41_encoder.md R53, R56): for i = n downto 1, B[i] <- 0x80 | (rem & 0x3F) and rem <- rem >> 6.
rem and the index are locals of the operation, not state (10_state.md R17). The answer is the last rem and B. -/
def fillContinuation : Nat → Word → Lanes → Word × Lanes
  | 0, rem, b => (rem, b)
  | i + 1, rem, b => fillContinuation i (dropChunk rem) (b.setIfInBounds (i + 1) (continuationByte rem))

/-- Steps 2 to 4 of ENCODE (41_encoder.md R53, R55 to R57): six zero lanes, the continuation bytes, the header byte. -/
def packLanes (l : LengthClass) (h : Header) (v : Word) : Lanes :=
  match fillContinuation (lengthNat l - 1) v zeroLanes with
  | (rem, b) => b.setIfInBounds 0 (headerByte (headerCode h) rem)

/-- ENCODE (41_encoder.md R53). -/
def execEncode (v : Word) (s : State) : Host.Outcome State Fault Refusal :=
  match classification v with
  | none => raiseOverflow .encode s
  | some (l, h) => completeWith (.enc l (packLanes l h v)) s

end Sys2Proof.Machine
end

