-- ==== Sys2Proof/Machine/Dispatch.lean ====
section
/-! DEFINITION. What each request does: one arm per constructor of Instr (30_encoding.md R31). -/

namespace Sys2Proof.Machine

def exec (i : Instr) (s : State) : Host.Outcome State Fault Refusal :=
  match i with
  | .classify v => Sys2Proof.Machine.execClassify v s
  | .encode v => Sys2Proof.Machine.execEncode v s

end Sys2Proof.Machine
end

