-- ==== Sys2Proof/Machine/Port.lean ====
section
/-! DEFINITION. The request port: performing one action of the host (10_state.md R19), and a list of them
(70_reset_and_hazards.md R78). -/

namespace Sys2Proof.Machine

/-- One action of the host, already taken from the waiting ones (10_state.md R19). -/
def perform (a : HostAction) (s : State) : Host.Outcome State Fault Refusal :=
  match a with
  | .request w => exec (decode w) s
  | .read f => hostRead f s
  | .reset => .next (hostReset s)

/-- A finite list of host actions performed in list order, ending after the last one (70_reset_and_hazards.md R78). The
final state holds RESULT and what each READ gave back. A READ that faults ends the run no earlier: the later actions are
performed from the state the fault leaves. That the host goes on there is the model's choice (DESIGN CHOICE, log entry
12): R11 and R19 say only that the READ is a fault. -/
def performAll : List HostAction → State → Host.Outcome State Fault Refusal
  | [], s => .next s
  | a :: rest, s =>
    match perform a s with
    | .next t => performAll rest t
    | .fault (.noValue _ t) => performAll rest t
    | .refused r => .refused r

/-- One step: take the host's next action and perform it whole (70_reset_and_hazards.md R76). A READ of NOVALUE is a fault
that carries the state it leaves, from which the next step can go on (log entry 12). With no action waiting
nothing happens, since only a request or reset writes RESULT (10_state.md R10; DESIGN CHOICE, log entry 3, safe). -/
def stepPort (s : State) : Host.Outcome State Fault Refusal :=
  match takeAction s with
  | none => .next s
  | some (a, t) => perform a t

/-- A raw request of nbits bits put in front of the waiting actions. Bits that are no request word place nothing. -/
def placeBits (nbits w : Nat) (s : State) : State :=
  match requestOfBits nbits w with
  | .ok r => placeRequest r s
  | .error _ => s

end Sys2Proof.Machine
end

