-- ==== Sys2Proof/Machine/Step.lean ====
section
/-! DEFINITION. The step function (92_eei_decisions.md D1: one request is one atomic step). -/

namespace Sys2Proof.Machine

/-- One step of the machine: the host's next action. -/
def step (s : State) : Host.Outcome State Fault Refusal := stepPort s

/-- The state with a raw request word placed where step takes its next request. The block fetches nothing
(20_memory.md R29); the request comes from the host, so this stands for the host's submitting it (log entry 5). -/
def State.withFetchWord (s : State) (nbits w : Nat) : State := placeBits nbits w s

end Sys2Proof.Machine
end

