-- ==== Sys2Proof/Config.lean ====
section
/-! DEFINITION. What is fixed for this hardware: the parameters of 00_scope.md R7. The spec leaves no parameter open
(R7: "No parameter is left open"; 93_implementation_defined.md section 1), so there is no free value here. -/

namespace Sys2Proof.Config

/-- VALUE_WIDTH of R7: the width of the input. -/
abbrev valueWidth : Nat := 32

/-- MAX_LEN of R7: the largest length class. -/
abbrev maxLen : Nat := 6

/-- CAPACITY of R7: the number of output byte lanes. -/
abbrev capacity : Nat := 6

/-- DOMAIN_MAX of R7: the largest value accepted. -/
abbrev domainMax : BitVec 32 := 0x7FFFFFFF#32

/-- The byte width of R7. -/
abbrev byteWidth : Nat := 8

/-- The LEN field width of R7 (decision D6). -/
abbrev lenWidth : Nat := 3

/-- The request word width of R7 (decision D2). -/
abbrev requestWidth : Nat := 33

/-- The number of operations of R7. -/
abbrev operationCount : Nat := 2

end Sys2Proof.Config
end

