-- ==== Sys2Proof/Machine/Format.lean ====
section
/-! DEFINITION. The spec's equivalent forms, none of which the meanings use: the range table as data (40_classifier.md
R44, R46), the closed forms of the length and the header (R48, R49), the free bits F(L) (R50), the mask M(L) (R51), the
bit placement (30_encoding.md R37), and the leading ones of a byte (R38). Statements compare the meanings with them. -/

namespace Sys2Proof.Machine

/-- The length classes, shortest first (10_state.md R14). -/
def lengthClasses : List LengthClass := [.one, .two, .three, .four, .five, .six]

/-- A row of the range table, both ends included (40_classifier.md R44). -/
structure RangeRow where
  lo : Word
  hi : Word
  len : LengthClass
  hdr : Header
  deriving DecidableEq, Repr

/-- The range table as data (40_classifier.md R44). -/
def rangeTable : List RangeRow :=
  [⟨0x00000000#32, 0x0000007F#32, .one, .x00⟩,
   ⟨0x00000080#32, 0x000007FF#32, .two, .xC0⟩,
   ⟨0x00000800#32, 0x0000FFFF#32, .three, .xE0⟩,
   ⟨0x00010000#32, 0x001FFFFF#32, .four, .xF0⟩,
   ⟨0x00200000#32, 0x03FFFFFF#32, .five, .xF8⟩,
   ⟨0x04000000#32, 0x7FFFFFFF#32, .six, .xFC⟩]

/-- A row holds a value: both ends are included (90_conflicts.md C3). -/
def rowHolds (r : RangeRow) (v : Word) : Bool := r.lo ≤ v && v ≤ r.hi

/-- The header pattern H(L) of a length class (40_classifier.md R44). -/
def headerOf : LengthClass → Header
  | .one => .x00
  | .two => .xC0
  | .three => .xE0
  | .four => .xF0
  | .five => .xF8
  | .six => .xFC

/-- The closed form of H(L): 0x00 for L = 1, else (0xFF << (8-L)) & 0xFF (40_classifier.md R49); a byte cuts to 8 bits. -/
def headerFormula (l : LengthClass) : Byte :=
  match l with
  | .one => 0x00#8
  | _ => 0xFF#8 <<< (8 - lengthNat l)

/-- F(L), the low bits of H(L) left free for payload: F(1) = 7, F(L) = 7 - L (40_classifier.md R50). -/
def payloadBits (l : LengthClass) : Nat :=
  match l with
  | .one => 7
  | _ => 7 - lengthNat l

/-- The payload bits of a whole sequence: 6(L-1) + F(L) (40_classifier.md R50). -/
def sequenceBits (l : LengthClass) : Nat := 6 * (lengthNat l - 1) + payloadBits l

/-- M(L), the bits the header occupies: 0xFF & ~((1 << F(L)) - 1) (40_classifier.md R51). -/
def headerMask (l : LengthClass) : Byte := ~~~((1#8 <<< payloadBits l) - 1#8)

/-- The index of the highest set bit below n, plus 1; 0 if there is none. -/
def bitLengthBelow (v : Word) : Nat → Nat
  | 0 => 0
  | n + 1 => if v.getLsbD n then n + 1 else bitLengthBelow v n

/-- n(v), the bit length of v: the index of its highest set bit plus 1, with n(0) = 0 (40_classifier.md R48). -/
def bitLength (v : Word) : Nat := bitLengthBelow v 32

/-- The closed form of L from the bit length (40_classifier.md R48); none where R48 gives no length. -/
def lengthOfBits (n : Nat) : Option LengthClass :=
  if n ≤ 7 then some .one
  else if n ≤ 11 then some .two
  else if n ≤ 16 then some .three
  else if n ≤ 21 then some .four
  else if n ≤ 26 then some .five
  else if n ≤ 31 then some .six
  else none

/-- Where each bit of VALUE goes, one row per length, as 30_encoding.md R37 writes it: fixed bits, then a slice of v. -/
def placement (l : LengthClass) (v : Word) : Lanes :=
  match l with
  | .one => #v[0b0#1 ++ v.extractLsb 6 0, 0x00#8, 0x00#8, 0x00#8, 0x00#8, 0x00#8]
  | .two => #v[0b110#3 ++ v.extractLsb 10 6, 0b10#2 ++ v.extractLsb 5 0, 0x00#8, 0x00#8, 0x00#8, 0x00#8]
  | .three => #v[0b1110#4 ++ v.extractLsb 15 12, 0b10#2 ++ v.extractLsb 11 6, 0b10#2 ++ v.extractLsb 5 0,
      0x00#8, 0x00#8, 0x00#8]
  | .four => #v[0b11110#5 ++ v.extractLsb 20 18, 0b10#2 ++ v.extractLsb 17 12, 0b10#2 ++ v.extractLsb 11 6,
      0b10#2 ++ v.extractLsb 5 0, 0x00#8, 0x00#8]
  | .five => #v[0b111110#6 ++ v.extractLsb 25 24, 0b10#2 ++ v.extractLsb 23 18, 0b10#2 ++ v.extractLsb 17 12,
      0b10#2 ++ v.extractLsb 11 6, 0b10#2 ++ v.extractLsb 5 0, 0x00#8]
  | .six => #v[0b1111110#7 ++ v.extractLsb 30 30, 0b10#2 ++ v.extractLsb 29 24, 0b10#2 ++ v.extractLsb 23 18,
      0b10#2 ++ v.extractLsb 17 12, 0b10#2 ++ v.extractLsb 11 6, 0b10#2 ++ v.extractLsb 5 0]

/-- The run of 1-bits from bit n-1 down. -/
def leadingOnesFrom (b : Byte) : Nat → Nat
  | 0 => 0
  | n + 1 => if b.getLsbD n then leadingOnesFrom b n + 1 else 0

/-- The number of leading 1-bits of a byte (30_encoding.md R38). -/
def leadingOnes (b : Byte) : Nat := leadingOnesFrom b 8

/-- The outcome of a request with no range table and no loop: the length from the bit length (40_classifier.md R48), the
header pattern of that length, and every lane computed independently (41_encoder.md R58, 10_state.md R17). -/
def combinationalResult : Instr → Result
  | .classify v =>
    match lengthOfBits (bitLength v) with
    | some l => .cls l (headerOf l)
    | none => .ovf .classify
  | .encode v =>
    match lengthOfBits (bitLength v) with
    | some l => .enc l (placement l v)
    | none => .ovf .encode

end Sys2Proof.Machine
end

