-- ==== Sys2Proof/Safety.lean ====
section
/-! DEFINITION. What a safe machine and a safe run are, in the terms the statements use. -/

namespace Sys2Proof.Machine

/-- A sequence of length L keeps its format: byte 0 carries H(L) under the mask M(L) (41_encoder.md R61), lanes 1..L-1
have the prefix 10 (R62), and lanes L..5 hold 0x00 (10_state.md R13). -/
def lanesInFormat (l : LengthClass) (b : Lanes) : Bool :=
  (b[0] &&& headerMask l == headerCode (headerOf l)) &&
    (List.finRange 6).all fun k =>
      if k.val = 0 then true
      else if k.val < lengthNat l then b[k] &&& 0xC0#8 == 0x80#8
      else b[k] == 0x00#8

/-- RESULT's parts agree with each other: HDR is the header of LEN (40_classifier.md R44), the lanes keep the format. -/
def resultInFormat : Result → Bool
  | .none => true
  | .cls l h => h == headerOf l
  | .enc l b => lanesInFormat l b
  | .ovf _ => true

/-- The invariant of every step: RESULT's parts agree. -/
abbrev State.InFormat (s : State) : Prop := resultInFormat s.result = true

/-- The exact invariant: RESULT is NONE or what some request leaves (10_state.md R10: the outcome of the most recent
operation). -/
def State.Produced (s : State) : Prop :=
  s.result = .none ∨ ∃ i t, exec i State.reset = .next t ∧ s.result = t.result

/-- An action that writes RESULT: a request or reset; a READ writes nothing (10_state.md R10, R19). -/
def writesResult : HostAction → Bool
  | .request _ => true
  | .read _ => false
  | .reset => true

/-- RESULT after an action, by the closed forms (41_encoder.md R58) and the reset value (10_state.md R20). -/
def resultAfter (r : Result) : HostAction → Result
  | .request w => combinationalResult (decode w)
  | .read _ => r
  | .reset => .none

/-- What the READs of a list of actions give back, in order, from RESULT = r (70_reset_and_hazards.md R78). -/
def answersFrom : Result → List HostAction → List ReadAnswer
  | _, [] => []
  | r, a :: rest =>
    match a with
    | .read f => answerOf r f :: answersFrom r rest
    | _ => answersFrom (resultAfter r a) rest

/-- An answer that is a value. -/
def isValue : ReadAnswer → Bool
  | .value _ => true
  | .noValue _ => false

/-- A run's answers are fault-free when no READ returned NOVALUE (70_reset_and_hazards.md R78). -/
def faultFree (answers : List ReadAnswer) : Bool := answers.all isValue

/-- RESULT at the end of a list of actions. -/
def finalResult (r : Result) (as : List HostAction) : Result := as.foldl resultAfter r

/-- The low 6 bits of lanes k..k+n-1, most significant chunk first, appended to an accumulated number. -/
def chunksFrom (b : Lanes) : Nat → Nat → Nat → Nat
  | _, 0, acc => acc
  | k, n + 1, acc => chunksFrom b (k + 1) n (acc * 64 + (b.getD k 0x00#8).toNat % 64)

/-- The number that the payload bits of a sequence of length L write, most significant first: the low F(L) bits of lane 0,
then the low 6 bits of lanes 1..L-1 (30_encoding.md R37). For statements only: the block has no decoder
(00_scope.md R5). -/
def payloadNumber (l : LengthClass) (b : Lanes) : Nat :=
  chunksFrom b 1 (lengthNat l - 1) (b[0].toNat % 2 ^ payloadBits l)

end Sys2Proof.Machine
end

