-- ==== Sys2Proof/Certificates/Slice0/Obligations.lean ====
section
/-! DEFINITION. The statements for the provers. Each docstring names the rules of spec/ it formalises. -/

open Sys2Proof Sys2Proof.Machine

/-! Encoding and decoding. -/

/-- 30_encoding.md R31, R32: bit 32 (OP) selects the operation, bits 31:0 are VALUE, unchanged. -/
def Obligations.DecoderFollowsOpTable : Prop :=
  ∀ w : RequestWord,
    (w.getLsbD 32 = false → decode w = .classify (w.extractLsb 31 0)) ∧
    (w.getLsbD 32 = true → decode w = .encode (w.extractLsb 31 0))

/-- 95_test_vectors.md sections 1 and 2.1: request words the spec writes out decode to the request they stand for. -/
def Obligations.SpelledOutWordsDecode : Prop :=
  decodeTableWord 40 0x1000000A9 = some (.encode 0xA9#32) ∧
  decodeTableWord 40 0x17DEADA55 = some (.encode 0x7DEADA55#32) ∧
  decodeTableWord 40 0x180000000 = some (.encode 0x80000000#32) ∧
  decodeTableWord 40 0x080000000 = some (.classify 0x80000000#32) ∧
  decodeTableWord 40 0x07FFFFFFF = some (.classify 0x7FFFFFFF#32) ∧
  decodeTableWord 40 0x000000800 = some (.classify 0x800#32)

/-- 30_encoding.md R30, R31, R33: requests and request words correspond one to one; the raw reader agrees for every
width that holds a request word. -/
def Obligations.EncodeAndDecodeAreInverse : Prop :=
  (∀ i : Instr, decode (encodeRequest i) = i) ∧
  (∀ w : RequestWord, encodeRequest (decode w) = w) ∧
  (∀ (i : Instr) (nbits : Nat), 33 ≤ nbits → decodeTableWord nbits (encodeRequest i).toNat = some i)

/-- The encodings of 40_classifier.md R43 and 41_encoder.md R53 as spec/opcode_table.json gives them: every request word
matches exactly one row, and the decoder answers that row's request. -/
def Obligations.OpcodeRowsPartitionRequestWords : Prop :=
  ∀ w : RequestWord,
    (rowMatches classifyRow w = !rowMatches encodeRow w) ∧
    (rowMatches classifyRow w = true ↔ ∃ v, decode w = .classify v) ∧
    (rowMatches encodeRow w = true ↔ ∃ v, decode w = .encode v)

/-- 30_encoding.md R30, with the model's choice of log entry 5 (DESIGN CHOICE): raw bits are read exactly when they fit
33 bits, and are otherwise refused by name. -/
def Obligations.RawBitsReadExactlyWhenTheyFit : Prop :=
  ∀ nbits w : Nat,
    (w % 2 ^ nbits < 2 ^ 33 → ∃ i, decodeBits nbits w = .ok i ∧ (encodeRequest i).toNat = w % 2 ^ nbits) ∧
    (2 ^ 33 ≤ w % 2 ^ nbits → decodeBits nbits w = .error .widerThanRequest)

/-- 30_encoding.md R33: every request word is legal; it completes, and one with bit 31 of VALUE set leaves the Overflow
result of its operation. -/
def Obligations.EveryRequestWordIsLegal : Prop :=
  ∀ (w : RequestWord) (s : State), ∃ t, exec (decode w) s = .next t ∧
    (w.getLsbD 31 = true → w.getLsbD 32 = false → t.result = .ovf .classify) ∧
    (w.getLsbD 31 = true → w.getLsbD 32 = true → t.result = .ovf .encode)

/-- 30_encoding.md R40, R41: a line with a literal in range assembles to the one request word (OP, VALUE), which decodes
to the request with that value. -/
def Obligations.AssemblerEmitsOpAndValue : Prop :=
  ∀ l : Literal, literalHasDigits l = true → literalValue l ≤ 0xFFFFFFFF →
    ∃ v : Word, v.toNat = literalValue l ∧
      assemble (.classify l) = .ok (.request (0#1 ++ v)) ∧ decode (0#1 ++ v) = .classify v ∧
      assemble (.encode l) = .ok (.request (1#1 ++ v)) ∧ decode (1#1 ++ v) = .encode v

/-- 30_encoding.md R40: a literal outside 0..0xFFFFFFFF is refused. That the assembler takes exactly the lines that asmLineOk
admits, so that a literal without digits and a lane outside 0..5 are refused too, is the model's choice (log entry 6,
DESIGN CHOICE). -/
def Obligations.AssemblerRefusesIllFormedLines : Prop :=
  (∀ a : AsmLine, asmLineOk a = true ↔ ∃ act, assemble a = .ok act) ∧
  (∀ l : Literal, literalHasDigits l = true → 0xFFFFFFFF < literalValue l →
    assemble (.classify l) = .error .literalOutOfRange ∧ assemble (.encode l) = .error .literalOutOfRange)

/-- 00_scope.md R7: the parameters of the block, each tied to the type or function it is the parameter of: the widths to the
numbers that VALUE, a byte, the LEN code and a request word can be, the count of operations to the values of OP. -/
def Obligations.ParametersHaveTheirValues : Prop :=
  (∀ n : Nat, n < 2 ^ Config.valueWidth ↔ ∃ v : Word, v.toNat = n) ∧
  (∀ n : Nat, n < 2 ^ Config.byteWidth ↔ ∃ b : Byte, b.toNat = n) ∧
  (∀ n : Nat, n < 2 ^ Config.lenWidth ↔ ∃ c : LenCode, c.toNat = n) ∧
  (∀ n : Nat, n < 2 ^ Config.requestWidth ↔ ∃ w : RequestWord, w.toNat = n) ∧
  (∀ v : Word, overflows v = true ↔ Config.domainMax < v) ∧
  (∀ l : LengthClass, 1 ≤ lengthNat l ∧ lengthNat l ≤ Config.maxLen) ∧
  (∃ l : LengthClass, lengthNat l = Config.maxLen) ∧
  (∀ b : Lanes, b.toList.length = Config.capacity) ∧
  (∃ code : Instr → Fin Config.operationCount, Function.Surjective code ∧
    ∀ i j, code i = code j ↔ requestOp (encodeRequest i) = requestOp (encodeRequest j))

/-! Reset, the host's actions and the step. -/

/-- 10_state.md R20: after reset RESULT is NONE, KIND is 0, every other field holds NOVALUE; a RESET loses any result. -/
def Obligations.ResetLeavesResultNone : Prop :=
  State.reset.result = .none ∧ kindCode State.reset.result = 0#2 ∧
  (∀ f : Field, f ≠ .kind → readField State.reset.result f = none) ∧
  (∀ s : State, (hostReset s).result = State.reset.result)

/-- 70_reset_and_hazards.md R74 with log entry 4 (DESIGN CHOICE, what the host keeps): a RESET taken in any state leaves
RESULT = NONE and nothing else of the state changes but that the action is taken. -/
def Obligations.ResetActionClearsOnlyResult : Prop :=
  ∀ (s : State) (rest : List HostAction), s.pending = .reset :: rest →
    step s = .next { s with result := .none, pending := rest }

/-- 10_state.md R12 (with the codes of 30_encoding.md R34, LEN in plain binary): the fields of each of the four forms. -/
def Obligations.FieldsOfEachForm : Prop :=
  (lengthClasses.map lengthNat = [1, 2, 3, 4, 5, 6] ∧ ∀ l, (lengthCode l).toNat = lengthNat l) ∧
  (readField .none .kind = some (.kind 0#2) ∧
    ∀ f : Field, f ≠ .kind → readField .none f = none) ∧
  (∀ l h, readField (.cls l h) .kind = some (.kind 1#2) ∧ readField (.cls l h) .status = some (.status 0#1) ∧
    readField (.cls l h) .len = some (.len (lengthCode l)) ∧
    readField (.cls l h) .hdr = some (.hdr (headerCode h)) ∧
    ∀ i, readField (.cls l h) (.lane i) = none) ∧
  (∀ l b, readField (.enc l b) .kind = some (.kind 2#2) ∧ readField (.enc l b) .status = some (.status 0#1) ∧
    readField (.enc l b) .len = some (.len (lengthCode l)) ∧ readField (.enc l b) .hdr = none ∧
    ∀ i : Fin 6, readField (.enc l b) (.lane i) = some (.lane i b[i])) ∧
  (∀ k, readField (.ovf k) .kind = some (.kind (match k with | .classify => 1#2 | .encode => 2#2)) ∧
    readField (.ovf k) .status = some (.status 1#1) ∧ readField (.ovf k) .len = none ∧
    readField (.ovf k) .hdr = none ∧ ∀ i, readField (.ovf k) (.lane i) = none)

/-- 10_state.md R14, 30_encoding.md R34, 93_implementation_defined.md section 2, and log entry 10 (DEDUCED: the types of RESULT
cannot hold the other codes): no RESULT at all shows KIND 3, LEN 0 or 7, or any HDR but the six, and every other code of
the table is the code of some RESULT. -/
def Obligations.FieldCodesStayInTheirTables : Prop :=
  (∀ r, kindCode r ≠ 3#2) ∧
  (∀ r c, lenField r = some c → c ≠ 0#3 ∧ c ≠ 7#3) ∧
  (∀ r c, hdrField r = some c → c ∈ [0x00#8, 0xC0#8, 0xE0#8, 0xF0#8, 0xF8#8, 0xFC#8]) ∧
  (∀ c : BitVec 2, c ≠ 3#2 → ∃ r, kindCode r = c) ∧
  (∀ c : BitVec 1, ∃ r, statusCode r = some c) ∧
  (∀ c : BitVec 3, c ≠ 0#3 → c ≠ 7#3 → ∃ r, lenField r = some c) ∧
  (∀ c ∈ [0x00#8, 0xC0#8, 0xE0#8, 0xF0#8, 0xF8#8, 0xFC#8], ∃ r, hdrField r = some c)

/-- 10_state.md R11, R19: a READ returns the field's value, or faults with "no value" when the field holds NOVALUE. What the
fault leaves (RESULT as it was, the READ taken, its fault among the answers) is the model's choice (log entry 12). -/
def Obligations.ReadReturnsValueOrFaults : Prop :=
  ∀ (s : State) (f : Field) (rest : List HostAction), s.pending = .read f :: rest →
    (∀ v, readField s.result f = some v →
      step s = .next { s with pending := rest, reads := s.reads ++ [.value v] }) ∧
    (readField s.result f = none →
      step s = .fault (.noValue f { s with pending := rest, reads := s.reads ++ [.noValue f] }))

/-- 20_memory.md R25: a READ has no side effect on the block, and repeating it gives the same answer. -/
def Obligations.RepeatedReadGivesSameAnswer : Prop :=
  ∀ (s : State) (f : Field) (v : FieldValue) (rest : List HostAction),
    s.pending = .read f :: .read f :: rest → readField s.result f = some v →
    ∃ t, step s = .next t ∧ t.result = s.result ∧
      step t = .next { s with pending := rest, reads := s.reads ++ [.value v, .value v] }

/-- A step runs the decoded request, after taking it from the waiting actions (20_memory.md R26, 30_encoding.md R30);
with a raw word placed, the very next step runs what the decoder reads from it (log entry 5). -/
def Obligations.StepRunsDecodedRequest : Prop :=
  (∀ (s : State) (w : RequestWord) (rest : List HostAction), s.pending = .request w :: rest →
    step s = exec (decode w) { s with pending := rest }) ∧
  (∀ (s : State) (nbits w : Nat) (i : Instr), decodeTableWord nbits w = some i →
    step (s.withFetchWord nbits w) = exec i s)

/-- The model's choice of log entry 3 (DESIGN CHOICE), resting on 10_state.md R10 ("Nothing else writes RESULT except
reset"): with no action waiting, a step changes nothing. -/
def Obligations.IdleStepChangesNothing : Prop :=
  ∀ s : State, s.pending = [] → step s = .next s

/-- 20_memory.md R26: actions are performed one at a time, in order, each whole before the next; every READ between a
request and the next request sees that request's outcome. -/
def Obligations.ActionsPerformedInOrder : Prop :=
  (∀ s t : State, step s = .next t → t.pending = s.pending.tail) ∧
  (∀ (s : State) (w : RequestWord) (fs : List Field) (vs : List FieldValue) (rest : List HostAction),
    s.pending = .request w :: (fs.map .read ++ rest) →
    fs.mapM (readField (combinationalResult (decode w))) = some vs →
    (core.run (fs.length + 1) s : Host.Outcome State Fault Refusal) =
      .next { result := combinationalResult (decode w), pending := rest, reads := s.reads ++ vs.map .value })

/-! The range classifier. -/

/-- 40_classifier.md R44: the six rows of ClassTable, both ends included. -/
def Obligations.ClassTableHasTheSixRows : Prop :=
  ∀ v : Word,
    (v ≤ 0x0000007F#32 → classTable v = (.one, .x00)) ∧
    (0x00000080#32 ≤ v → v ≤ 0x000007FF#32 → classTable v = (.two, .xC0)) ∧
    (0x00000800#32 ≤ v → v ≤ 0x0000FFFF#32 → classTable v = (.three, .xE0)) ∧
    (0x00010000#32 ≤ v → v ≤ 0x001FFFFF#32 → classTable v = (.four, .xF0)) ∧
    (0x00200000#32 ≤ v → v ≤ 0x03FFFFFF#32 → classTable v = (.five, .xF8)) ∧
    (0x04000000#32 ≤ v → v ≤ 0x7FFFFFFF#32 → classTable v = (.six, .xFC))

/-- 40_classifier.md R46: the ranges are contiguous, do not overlap and cover [0, 0x7FFFFFFF]; every value there is held by
exactly one row, no row holds a value above, and ClassTable answers the row that holds its value. -/
def Obligations.RangesPartitionTheDomain : Prop :=
  rangeTable.head?.map RangeRow.lo = some 0x00000000#32 ∧
  rangeTable.getLast?.map RangeRow.hi = some 0x7FFFFFFF#32 ∧
  (∀ k a b, rangeTable[k]? = some a → rangeTable[k + 1]? = some b → a.hi + 1#32 = b.lo) ∧
  (∀ v : Word, v ≤ 0x7FFFFFFF#32 → ∃! k : Nat, ∃ r, rangeTable[k]? = some r ∧ rowHolds r v = true) ∧
  (∀ v : Word, ∀ r ∈ rangeTable, rowHolds r v = true → v ≤ 0x7FFFFFFF#32 ∧ classTable v = (r.len, r.hdr))

/-- 40_classifier.md R45: Overflow is exactly value > 0x7FFFFFFF, the same test as bit 31, in both operations; neither has
another failure. -/
def Obligations.OverflowExactlyBit31 : Prop :=
  ∀ v : Word,
    (0x7FFFFFFF#32 < v ↔ v.getLsbD 31 = true) ∧
    (classification v = none ↔ 0x7FFFFFFF#32 < v) ∧
    (∀ (s : State) (k : OpKind), exec (.classify v) s = .next { s with result := .ovf k } ↔
      0x7FFFFFFF#32 < v ∧ k = .classify) ∧
    (∀ (s : State) (k : OpKind), exec (.encode v) s = .next { s with result := .ovf k } ↔
      0x7FFFFFFF#32 < v ∧ k = .encode) ∧
    (∀ (i : Instr) (s : State), ∃ t, exec i s = .next t)

/-- 40_classifier.md R47: CLASSIFY of each of the twelve boundary values leaves the row of R44 that holds it. -/
def Obligations.BoundaryValuesGetTheirRow : Prop :=
  ∀ s : State,
    exec (.classify 0x0#32) s = .next { s with result := .cls .one .x00 } ∧
    exec (.classify 0x7F#32) s = .next { s with result := .cls .one .x00 } ∧
    exec (.classify 0x80#32) s = .next { s with result := .cls .two .xC0 } ∧
    exec (.classify 0x7FF#32) s = .next { s with result := .cls .two .xC0 } ∧
    exec (.classify 0x800#32) s = .next { s with result := .cls .three .xE0 } ∧
    exec (.classify 0xFFFF#32) s = .next { s with result := .cls .three .xE0 } ∧
    exec (.classify 0x10000#32) s = .next { s with result := .cls .four .xF0 } ∧
    exec (.classify 0x1FFFFF#32) s = .next { s with result := .cls .four .xF0 } ∧
    exec (.classify 0x200000#32) s = .next { s with result := .cls .five .xF8 } ∧
    exec (.classify 0x3FFFFFF#32) s = .next { s with result := .cls .five .xF8 } ∧
    exec (.classify 0x4000000#32) s = .next { s with result := .cls .six .xFC } ∧
    exec (.classify 0x7FFFFFFF#32) s = .next { s with result := .cls .six .xFC }

/-- 40_classifier.md R43, whole: OP = 0 is CLASSIFY, and CLASSIFY completes in every state for every VALUE; it leaves OVF(CLASSIFY) when bit 31
is set and otherwise the row that holds VALUE; every field it writes; and its frame. -/
def Obligations.ClassifyWritesItsRowOrOverflow : Prop :=
  ∀ (v : Word) (s : State), decode (0#1 ++ v) = .classify v ∧ ∃ t, exec (.classify v) s = .next t ∧
    t.pending = s.pending ∧ t.reads = s.reads ∧
    kindCode t.result = 1#2 ∧ (∀ i, laneField i t.result = none) ∧
    (v.getLsbD 31 = true → t.result = .ovf .classify ∧ statusCode t.result = some 1#1 ∧
      lenField t.result = none ∧ hdrField t.result = none) ∧
    (∀ r ∈ rangeTable, rowHolds r v = true → t.result = .cls r.len r.hdr ∧ statusCode t.result = some 0#1 ∧
      lenField t.result = some (lengthCode r.len) ∧ hdrField t.result = some (headerCode r.hdr)) ∧
    (v.getLsbD 31 = false → ∃ r ∈ rangeTable, rowHolds r v = true)

/-- 40_classifier.md R48: the closed form of L by the bit length. -/
def Obligations.LengthIsFixedByBitLength : Prop :=
  ∀ v : Word, v ≤ 0x7FFFFFFF#32 →
    (bitLength v ≤ 7 → (classTable v).1 = .one) ∧
    (8 ≤ bitLength v → bitLength v ≤ 11 → (classTable v).1 = .two) ∧
    (12 ≤ bitLength v → bitLength v ≤ 16 → (classTable v).1 = .three) ∧
    (17 ≤ bitLength v → bitLength v ≤ 21 → (classTable v).1 = .four) ∧
    (22 ≤ bitLength v → bitLength v ≤ 26 → (classTable v).1 = .five) ∧
    (27 ≤ bitLength v → bitLength v ≤ 31 → (classTable v).1 = .six) ∧
    bitLength v ≤ 31

/-- 40_classifier.md R49: the closed form of H(L), and its L leading 1-bits, then a 0, then zeros. -/
def Obligations.HeaderHasItsClosedForm : Prop :=
  ∀ l : LengthClass,
    headerCode (headerOf l) = headerFormula l ∧
    leadingOnes (headerCode (headerOf l)) = (if l = .one then 0 else lengthNat l) ∧
    (∀ j, j < 8 - leadingOnes (headerCode (headerOf l)) → (headerCode (headerOf l)).getLsbD j = false)

/-- 40_classifier.md R50: F(L), the payload of a whole sequence, and the bit length of the row's upper end. -/
def Obligations.PayloadBitsFitTheRanges : Prop :=
  lengthClasses.map payloadBits = [7, 5, 4, 3, 2, 1] ∧
  lengthClasses.map sequenceBits = [7, 11, 16, 21, 26, 31] ∧
  (∀ r ∈ rangeTable, bitLength r.hi = sequenceBits r.len) ∧
  (∀ l, (headerCode (headerOf l)).toNat % 2 ^ payloadBits l = 0)

/-- 40_classifier.md R51: the mask M(L), the 1-bits of H(L) together with the 0 that ends them. -/
def Obligations.HeaderMaskHasItsValues : Prop :=
  lengthClasses.map headerMask = [0x80#8, 0xE0#8, 0xF0#8, 0xF8#8, 0xFC#8, 0xFE#8] ∧
  ∀ (l : LengthClass) (j : Nat), j < 8 → ((headerMask l).getLsbD j = true ↔
    (headerCode (headerOf l)).getLsbD j = true ∨ j + leadingOnes (headerCode (headerOf l)) = 7)

/-- 40_classifier.md R52: the classifier picks the least L with v < 2^(6(L-1)+F(L)). -/
def Obligations.ClassifierPicksTheShortestLength : Prop :=
  ∀ v : Word, v ≤ 0x7FFFFFFF#32 →
    v.toNat < 2 ^ sequenceBits (classTable v).1 ∧
    ∀ l : LengthClass, v.toNat < 2 ^ sequenceBits l → lengthNat (classTable v).1 ≤ lengthNat l

/-! The bit-packer. -/

/-- 41_encoder.md R53 with the bit placement of 30_encoding.md R37: OP = 1 is ENCODE, and ENCODE completes in every state
for every VALUE; it leaves OVF(ENCODE) when bit 31 is set and otherwise the placed bits; every field it writes; and its frame. -/
def Obligations.EncodeWritesItsSequenceOrOverflow : Prop :=
  ∀ (v : Word) (s : State), decode (1#1 ++ v) = .encode v ∧ ∃ t, exec (.encode v) s = .next t ∧
    t.pending = s.pending ∧ t.reads = s.reads ∧
    kindCode t.result = 2#2 ∧ hdrField t.result = none ∧
    (v.getLsbD 31 = true → t.result = .ovf .encode ∧ statusCode t.result = some 1#1 ∧
      lenField t.result = none ∧ ∀ i, laneField i t.result = none) ∧
    (∀ r ∈ rangeTable, rowHolds r v = true → t.result = .enc r.len (placement r.len v) ∧
      statusCode t.result = some 0#1 ∧ lenField t.result = some (lengthCode r.len) ∧
      ∀ i : Fin 6, laneField i t.result = some (placement r.len v)[i]) ∧
    (v.getLsbD 31 = false → ∃ r ∈ rangeTable, rowHolds r v = true)

/-- 41_encoder.md R58, 40_classifier.md R48: both operations leave exactly what the bit length, the header pattern of the
length and the bit placement give, with no range table and no loop. -/
def Obligations.MeaningsEqualTheClosedForms : Prop :=
  ∀ (i : Instr) (s : State), exec i s = .next { s with result := combinationalResult i }

/-- 41_encoder.md R54: Overflow in ENCODE forms no byte, and only KIND tells it from Overflow in CLASSIFY. -/
def Obligations.EncodeOverflowFormsNoByte : Prop :=
  ∀ (v : Word) (s : State), v.getLsbD 31 = true → ∃ t u,
    exec (.encode v) s = .next t ∧ exec (.classify v) s = .next u ∧
    t.result = .ovf .encode ∧ (∀ i, laneField i t.result = none) ∧
    readField t.result .kind ≠ readField u.result .kind ∧
    ∀ f : Field, f ≠ .kind → readField t.result f = readField u.result f

/-- 41_encoder.md R57: after the loop rem = v >> 6(L-1) < 2^F(L); byte 0 is header | rem, and the OR changes no header bit
nor the 0 after it; RESULT becomes ENC(L, B). -/
def Obligations.RemainingValueFitsTheHeader : Prop :=
  ∀ (v : Word) (l : LengthClass) (h : Header), classification v = some (l, h) →
    (fillContinuation (lengthNat l - 1) v zeroLanes).1 = v >>> (6 * (lengthNat l - 1)) ∧
    (v >>> (6 * (lengthNat l - 1))).toNat < 2 ^ payloadBits l ∧
    headerByte (headerCode h) (v >>> (6 * (lengthNat l - 1))) &&& headerMask l = headerCode h ∧
    (packLanes l h v)[0] = headerByte (headerCode h) (v >>> (6 * (lengthNat l - 1))) ∧
    ∀ s : State, exec (.encode v) s = .next { s with result := .enc l (packLanes l h v) }

/-- 41_encoder.md R55: LEN is L and lanes L..5 hold 0x00 after ENCODE. -/
def Obligations.TrailingLanesHoldZero : Prop :=
  ∀ (v : Word) (s : State), v ≤ 0x7FFFFFFF#32 → ∃ b : Lanes,
    exec (.encode v) s = .next { s with result := .enc (classTable v).1 b } ∧
    ∀ k : Fin 6, lengthNat (classTable v).1 ≤ k.val → b[k] = 0x00#8

/-- 41_encoder.md R59: values up to 0x7F pass through as the single byte equal to the value. -/
def Obligations.AsciiPassesThrough : Prop :=
  ∀ (v : Word) (s : State), v ≤ 0x7F#32 → ∃ b0 : Byte, b0.toNat = v.toNat ∧
    exec (.encode v) s = .next { s with result := .enc .one #v[b0, 0x00#8, 0x00#8, 0x00#8, 0x00#8, 0x00#8] }

/-- 10_state.md R16, 41_encoder.md R60: ENCODE leaves the LEN that CLASSIFY leaves. -/
def Obligations.EncodeLeavesTheClassifiedLength : Prop :=
  ∀ (v : Word) (s s' : State), v ≤ 0x7FFFFFFF#32 → ∃ t t', exec (.classify v) s = .next t ∧
    exec (.encode v) s' = .next t' ∧ lenField t'.result = lenField t.result ∧ (lenField t.result).isSome = true

/-- 41_encoder.md R61: the header's bits appear unmodified in byte 0 under the mask M(L). -/
def Obligations.HeaderBitsAppearInByteZero : Prop :=
  ∀ (v : Word) (s : State), v ≤ 0x7FFFFFFF#32 → ∃ (l : LengthClass) (h : Header) (b : Lanes),
    classTable v = (l, h) ∧ exec (.encode v) s = .next { s with result := .enc l b } ∧
    b[0] &&& headerMask l = headerCode h

/-- 41_encoder.md R62: each lane 1..L-1 has the prefix 10; lane L, where there is one, holds 0x00. -/
def Obligations.ContinuationLanesHaveTheirPrefix : Prop :=
  ∀ (v : Word) (s : State), v ≤ 0x7FFFFFFF#32 → ∃ (l : LengthClass) (b : Lanes),
    l = (classTable v).1 ∧ exec (.encode v) s = .next { s with result := .enc l b } ∧
    (∀ k : Fin 6, 1 ≤ k.val → k.val < lengthNat l → b[k] &&& 0xC0#8 = 0x80#8) ∧
    (∀ k : Fin 6, k.val = lengthNat l → b[k] = 0x00#8)

/-- 41_encoder.md R58, 30_encoding.md R37: every payload bit of VALUE appears exactly once, most significant first, so the
payload of the sequence is VALUE. -/
def Obligations.PayloadBitsRestoreTheValue : Prop :=
  ∀ (v : Word) (s : State), v ≤ 0x7FFFFFFF#32 → ∃ (l : LengthClass) (b : Lanes),
    exec (.encode v) s = .next { s with result := .enc l b } ∧ payloadNumber l b = v.toNat

/-- 41_encoder.md R58: encoding is one-to-one on [0, 0x7FFFFFFF], even when only the logical output, lanes 0..LEN-1, is
compared. -/
def Obligations.EncodingIsOneToOne : Prop :=
  ∀ (v w : Word) (s s' : State) (l l' : LengthClass) (b b' : Lanes),
    exec (.encode v) s = .next { s with result := .enc l b } →
    exec (.encode w) s' = .next { s' with result := .enc l' b' } →
    b.toList.take (lengthNat l) = b'.toList.take (lengthNat l') → v = w

/-- 30_encoding.md R38: the leading 1-bits of byte 0 tell L, a continuation byte never stands in lane 0, and seven or
eight leading ones stand in no lane. -/
def Obligations.OutputTellsItsOwnLength : Prop :=
  ∀ (v : Word) (s : State), v ≤ 0x7FFFFFFF#32 → ∃ (l : LengthClass) (b : Lanes),
    exec (.encode v) s = .next { s with result := .enc l b } ∧
    (leadingOnes b[0] = 0 → lengthNat l = 1) ∧
    (2 ≤ leadingOnes b[0] → leadingOnes b[0] ≤ 6 → lengthNat l = leadingOnes b[0]) ∧
    leadingOnes b[0] ≠ 1 ∧
    ∀ k : Fin 6, leadingOnes b[k] < 7

/-- 30_encoding.md R39: the byte values that the logical output never holds; no overlong form. -/
def Obligations.SomeBytesAreNeverProduced : Prop :=
  ∀ (v : Word) (s : State) (l : LengthClass) (b : Lanes),
    exec (.encode v) s = .next { s with result := .enc l b } →
    (¬(0x80#8 ≤ b[0] ∧ b[0] ≤ 0xBF#8) ∧ b[0] ≠ 0xC0#8 ∧ b[0] ≠ 0xC1#8 ∧ b[0] ≠ 0xFE#8 ∧ b[0] ≠ 0xFF#8) ∧
    (l = .two → 0xC2#8 ≤ b[0] ∧ b[0] ≤ 0xDF#8) ∧
    (b[0] = 0xE0#8 → 0xA0#8 ≤ b[1]) ∧ (b[0] = 0xF0#8 → 0x90#8 ≤ b[1]) ∧
    (b[0] = 0xF8#8 → 0x88#8 ≤ b[1]) ∧ (b[0] = 0xFC#8 → 0x84#8 ≤ b[1]) ∧
    (∀ k : Fin 6, 1 ≤ k.val → k.val < lengthNat l → 0x80#8 ≤ b[k] ∧ b[k] ≤ 0xBF#8) ∧
    (∀ k : Fin 6, b[k] ≠ 0xFE#8 ∧ b[k] ≠ 0xFF#8)

/-- 41_encoder.md R65, 00_scope.md R3: no value of [0, 0x7FFFFFFF] is rejected, each is encoded by the same steps, values
above the RFC 3629 limit get the lengths 4 to 6, and every length 1..6 is used. -/
def Obligations.NoValueInTheDomainIsRejected : Prop :=
  (∀ (v : Word) (s : State), v ≤ 0x7FFFFFFF#32 → ∃ (l : LengthClass) (h : Header),
    classTable v = (l, h) ∧ exec (.encode v) s = .next { s with result := .enc l (packLanes l h v) } ∧
    (0x10FFFF#32 < v → 4 ≤ lengthNat l)) ∧
  (∀ (l : LengthClass) (s : State), ∃ (v : Word) (b : Lanes),
    exec (.encode v) s = .next { s with result := .enc l b })

/-- 95_test_vectors.md section 1: the worked examples of the source for ENCODE. -/
def Obligations.SourceExamplesEncode : Prop :=
  ∀ s : State,
    exec (.encode 0xA9#32) s =
      .next { s with result := .enc .two #v[0xC2#8, 0xA9#8, 0x00#8, 0x00#8, 0x00#8, 0x00#8] } ∧
    exec (.encode 0x2260#32) s =
      .next { s with result := .enc .three #v[0xE2#8, 0x89#8, 0xA0#8, 0x00#8, 0x00#8, 0x00#8] } ∧
    exec (.encode 0x61#32) s =
      .next { s with result := .enc .one #v[0x61#8, 0x00#8, 0x00#8, 0x00#8, 0x00#8, 0x00#8] } ∧
    exec (.encode 0x0#32) s =
      .next { s with result := .enc .one #v[0x00#8, 0x00#8, 0x00#8, 0x00#8, 0x00#8, 0x00#8] } ∧
    exec (.encode 0x1FCAFE#32) s =
      .next { s with result := .enc .four #v[0xF7#8, 0xBC#8, 0xAB#8, 0xBE#8, 0x00#8, 0x00#8] } ∧
    exec (.encode 0x3FCAFEF#32) s =
      .next { s with result := .enc .five #v[0xFB#8, 0xBF#8, 0x8A#8, 0xBF#8, 0xAF#8, 0x00#8] } ∧
    exec (.encode 0x7DEADA55#32) s =
      .next { s with result := .enc .six #v[0xFD#8, 0xBD#8, 0xBA#8, 0xAD#8, 0xA9#8, 0x95#8] } ∧
    exec (.encode 0x80000000#32) s = .next { s with result := .ovf .encode }

/-! Both operations: frame, independence, no partial success. -/

/-- 41_encoder.md R64, 60_exceptions.md R66, R67, 20_memory.md R27: a request writes one whole result of its own and nothing
else, the same one whatever the state it runs in: a full result with STATUS OK or, exactly when bit 31 of VALUE is set,
OVF of its own kind with no length, header or byte. -/
def Obligations.RequestWritesOneWholeResult : Prop :=
  ∀ i : Instr, ∃ r : Result, (∀ s : State, exec i s = .next { s with result := r }) ∧
    (i.value.getLsbD 31 = true →
      r = .ovf (match i with | .classify _ => .classify | .encode _ => .encode) ∧
      kindCode r = (match i with | .classify _ => 1#2 | .encode _ => 2#2) ∧
      statusCode r = some 1#1 ∧ lenField r = none ∧ hdrField r = none ∧ ∀ k, laneField k r = none) ∧
    (i.value.getLsbD 31 = false →
      statusCode r = some 0#1 ∧ (lenField r).isSome = true ∧
      match i with
      | .classify _ => (hdrField r).isSome = true
      | .encode _ => ∀ k, (laneField k r).isSome = true)

/-- 60_exceptions.md R68: an Overflow stops nothing. RESULT stays OVF(k) under READs, those that fault too, and the next
request is performed as after reset. -/
def Obligations.OverflowStopsNothing : Prop :=
  ∀ (s : State) (k : OpKind) (a : HostAction) (rest : List HostAction), s.result = .ovf k → s.pending = a :: rest →
    (∀ w, a = .request w → ∃ t u, step s = .next t ∧ exec (decode w) State.reset = .next u ∧ t.result = u.result) ∧
    (∀ f, a = .read f → ∃ t, (step s = .next t ∨ step s = .fault (.noValue f t)) ∧ t.result = .ovf k ∧
      t.pending = rest)

/-! The machine over its steps. -/

/-- 10_state.md R11, 60_exceptions.md R68: a step faults exactly on a READ of a field that holds NOVALUE, and no step is
refused. What the fault leaves is the model's choice (log entry 12). -/
def Obligations.OnlyNovalueReadsFault : Prop :=
  (∀ (s t : State) (f : Field), step s = .fault (.noValue f t) ↔
    ∃ rest, s.pending = .read f :: rest ∧ readField s.result f = none ∧
      t = { s with pending := rest, reads := s.reads ++ [.noValue f] }) ∧
  (∀ (s : State) (r : Refusal), step s ≠ .refused r)

/-- 10_state.md R10: RESULT is the outcome of the most recent operation; only a request or reset writes it. -/
def Obligations.OnlyRequestsAndResetWriteResult : Prop :=
  ∀ s t : State, step s = .next t →
    (s.pending = [] ∧ t.result = s.result) ∨
    ∃ a rest, s.pending = a :: rest ∧ t.result = resultAfter s.result a ∧
      (writesResult a = false → t.result = s.result)

/-- 41_encoder.md R61, R62, 10_state.md R13, 40_classifier.md R44: RESULT's parts agree with each other, and every step
keeps that, in the state a fault leaves too. -/
def Obligations.StepKeepsResultInFormat : Prop :=
  ∀ s : State, s.InFormat →
    (∀ t, step s = .next t → t.InFormat) ∧ (∀ f t, step s = .fault (.noValue f t) → t.InFormat)

/-- 10_state.md R10: RESULT is NONE or exactly what some request leaves, and every step keeps that, in the state a fault
leaves too. -/
def Obligations.StepKeepsResultProduced : Prop :=
  ∀ s : State, s.Produced →
    (∀ t, step s = .next t → t.Produced) ∧ (∀ f t, step s = .fault (.noValue f t) → t.Produced)

/-- 10_state.md R20: the reset state meets both invariants. -/
def Obligations.ResetMeetsTheInvariants : Prop :=
  State.reset.InFormat ∧ State.reset.Produced

/-- A RESULT that a request can leave keeps the format (10_state.md R13, 41_encoder.md R61, R62): the exact invariant
implies the other. -/
def Obligations.ProducedResultsAreInFormat : Prop :=
  ∀ s : State, s.Produced → s.InFormat

/-- 20_memory.md R27: after a request, nothing of RESULT depends on what was done before it. The lists run through performAll,
which goes on after a READ that faults, so that a list with such READs before its last request still performs that request:
the model's choice (log entry 12, DESIGN CHOICE, unsafe for a host that stops at a fault). With that choice performAll answers
a next state for every list (ListOfActionsEndsAfterItsLast), so the two premises shut out no list and only name the end
states. -/
def Obligations.EarlierActionsLeaveNoTrace : Prop :=
  ∀ (as bs : List HostAction) (w : RequestWord) (s s' t t' : State),
    performAll (as ++ [.request w]) s = .next s' → performAll (bs ++ [.request w]) t = .next t' →
    s'.result = t'.result

/-- 41_encoder.md R63, 70_reset_and_hazards.md R76: the block never hangs and is never busy; waiting actions without a
READ are all performed, one a step, and leave the outcome of the last one. -/
def Obligations.RequestsAndResetsRunToTheEnd : Prop :=
  ∀ s : State, (∀ a ∈ s.pending, writesResult a = true) →
    (core.run s.pending.length s : Host.Outcome State Fault Refusal) = .next { s with result := finalResult s.result s.pending, pending := [] }

/-- 70_reset_and_hazards.md R78: stepping performs the waiting actions as a list of host actions is performed. Steps that meet
no NOVALUE READ end where the list ends; steps that fault leave a state from which the rest of the list ends there too.
That steps after the last action change nothing (log entry 3) and that the list goes on after a READ that faults (log entry
12) are the model's choices (DESIGN CHOICE). -/
def Obligations.SteppingPerformsTheList : Prop :=
  ∀ (s : State) (k : Nat), s.pending.length ≤ k →
    (faultFree (answersFrom s.result s.pending) = true →
      (core.run k s : Host.Outcome State Fault Refusal) = performAll s.pending { s with pending := [] }) ∧
    (faultFree (answersFrom s.result s.pending) = false → ∃ f t,
      (core.run k s : Host.Outcome State Fault Refusal) = .fault (.noValue f t) ∧
      performAll t.pending { t with pending := [] } = performAll s.pending { s with pending := [] })

/-- 70_reset_and_hazards.md R78: a list of host actions ends after its last action, with RESULT at that point and what each
READ gave back; it is fault-free exactly when no READ returned NOVALUE. That the actions after a READ that faults are
performed is the model's choice (log entry 12, DESIGN CHOICE). -/
def Obligations.ListOfActionsEndsAfterItsLast : Prop :=
  ∀ (as : List HostAction) (s : State),
    performAll as s =
      .next { s with result := finalResult s.result as, reads := s.reads ++ answersFrom s.result as } ∧
    (faultFree (answersFrom s.result as) = true ↔
      ∀ before f after, as = before ++ .read f :: after → (readField (finalResult s.result before) f).isSome = true)
end

