-- ==== Sys2Proof/Laws/Classifier.lean ====
section
/-! SUPPORT. The range classifier: bit 31 as a bound, and the seven cases of a value. -/

namespace Sys2Proof.Machine

/-- Bit 31 of a word is set exactly from 0x80000000 up. -/
theorem overflows_iff (v : Word) : overflows v = true ↔ 0x7FFFFFFF#32 < v := by
  have h : overflows v = v.msb := by simp [overflows, BitVec.msb_eq_getLsbD_last]
  rw [h, BitVec.msb_eq_decide]
  simp [BitVec.lt_def]
  omega

/-- The seven cases of a value: Overflow, or one row of the range table. -/
theorem classification_cases (v : Word) :
    (0x7FFFFFFF#32 < v ∧ classification v = none) ∨
    (v ≤ 0x7FFFFFFF#32 ∧ classification v = some (classTable v) ∧
      ((v ≤ 0x7F#32 ∧ classTable v = (.one, .x00)) ∨
       (0x7F#32 < v ∧ v ≤ 0x7FF#32 ∧ classTable v = (.two, .xC0)) ∨
       (0x7FF#32 < v ∧ v ≤ 0xFFFF#32 ∧ classTable v = (.three, .xE0)) ∨
       (0xFFFF#32 < v ∧ v ≤ 0x1FFFFF#32 ∧ classTable v = (.four, .xF0)) ∨
       (0x1FFFFF#32 < v ∧ v ≤ 0x3FFFFFF#32 ∧ classTable v = (.five, .xF8)) ∨
       (0x3FFFFFF#32 < v ∧ v ≤ 0x7FFFFFFF#32 ∧ classTable v = (.six, .xFC)))) := by
  by_cases ho : overflows v = true
  · exact .inl ⟨(overflows_iff v).mp ho, by simp [classification, ho]⟩
  · have hv : v ≤ 0x7FFFFFFF#32 := BitVec.not_lt.mp fun h => ho ((overflows_iff v).mpr h)
    refine .inr ⟨hv, by simp [classification, ho], ?_⟩
    unfold classTable
    split
    · exact .inl ⟨‹_›, rfl⟩
    · split
      · exact .inr (.inl ⟨BitVec.not_le.mp ‹_›, ‹_›, rfl⟩)
      · split
        · exact .inr (.inr (.inl ⟨BitVec.not_le.mp ‹_›, ‹_›, rfl⟩))
        · split
          · exact .inr (.inr (.inr (.inl ⟨BitVec.not_le.mp ‹_›, ‹_›, rfl⟩)))
          · split
            · exact .inr (.inr (.inr (.inr (.inl ⟨BitVec.not_le.mp ‹_›, ‹_›, rfl⟩))))
            · exact .inr (.inr (.inr (.inr (.inr ⟨BitVec.not_le.mp ‹_›, hv, rfl⟩))))

end Sys2Proof.Machine
end

