-- ==== Sys2Proof/Laws/Decode.lean ====
section
/-! SUPPORT. The request word bit by bit, and what the raw reader and the assembler can answer. -/

namespace Sys2Proof

/-- The bits of a request word: VALUE below bit 32, OP at bit 32. -/
theorem makeRequest_getLsbD (op : BitVec 1) (v : Word) (j : Nat) :
    (makeRequest op v).getLsbD j = if j < 32 then v.getLsbD j else op.getLsbD (j - 32) :=
  BitVec.getLsbD_append

theorem requestOp_makeRequest (op : BitVec 1) (v : Word) : requestOp (makeRequest op v) = op.getLsbD 0 := by
  rw [requestOp, makeRequest_getLsbD, if_neg (by decide)]

theorem requestValue_makeRequest (op : BitVec 1) (v : Word) : requestValue (makeRequest op v) = v := by
  apply BitVec.eq_of_getLsbD_eq
  intro j hj
  have h := makeRequest_getLsbD op v j
  rw [if_pos hj] at h
  rw [requestValue, BitVec.getLsbD_extractLsb, ← h]
  simp only [Nat.sub_zero, Nat.zero_add, Bool.and_eq_right_iff_imp, decide_eq_true_eq]
  omega

/-- All that the raw reader can do: the number as a request word, or the refusal of what does not fit. -/
theorem requestOfBits_cases (nbits w : Nat) :
    (w % 2 ^ nbits < 2 ^ 33 ∧ ∃ r : RequestWord, r.toNat = w % 2 ^ nbits ∧ requestOfBits nbits w = .ok r) ∨
    (2 ^ 33 ≤ w % 2 ^ nbits ∧ requestOfBits nbits w = .error .widerThanRequest) := by
  by_cases h : w % 2 ^ nbits < 2 ^ 33
  · refine .inl ⟨h, BitVec.ofNat 33 (w % 2 ^ nbits), ?_, ?_⟩
    · rw [BitVec.toNat_ofNat, Nat.mod_eq_of_lt h]
    · unfold requestOfBits requestFits
      rw [if_pos (decide_eq_true h)]
  · refine .inr ⟨Nat.le_of_not_lt h, ?_⟩
    unfold requestOfBits requestFits
    rw [if_neg (by rw [decide_eq_true_eq]; exact h)]

/-- All that reading a literal can do: the value, or one of the two refusals. -/
theorem assembleLiteral_cases (l : Literal) :
    (literalOk l = true ∧ ∃ v : Word, v.toNat = literalValue l ∧ assembleLiteral l = .ok v) ∨
    (literalOk l = false ∧ ∃ e, assembleLiteral l = .error e) := by
  unfold assembleLiteral literalOk
  cases hd : literalHasDigits l with
  | false => exact .inr ⟨rfl, _, rfl⟩
  | true =>
    cases hr : literalInRange l with
    | false => exact .inr ⟨rfl, _, rfl⟩
    | true =>
      refine .inl ⟨rfl, BitVec.ofNat 32 (literalValue l), ?_, rfl⟩
      have h : literalValue l ≤ 0xFFFFFFFF := of_decide_eq_true hr
      rw [BitVec.toNat_ofNat, Nat.mod_eq_of_lt (by omega)]

end Sys2Proof
end

