-- ==== Sys2Proof/Laws/State.lean ====
section
/-! SUPPORT. One lemma per field per update of State, so that no later proof unfolds a record update. -/

namespace Sys2Proof.Machine

@[simp] theorem writeResult_result (r : Result) (s : State) : (writeResult r s).result = r := rfl
@[simp] theorem writeResult_pending (r : Result) (s : State) : (writeResult r s).pending = s.pending := rfl
@[simp] theorem writeResult_reads (r : Result) (s : State) : (writeResult r s).reads = s.reads := rfl

@[simp] theorem answerRead_result (a : ReadAnswer) (s : State) : (answerRead a s).result = s.result := rfl
@[simp] theorem answerRead_pending (a : ReadAnswer) (s : State) : (answerRead a s).pending = s.pending := rfl
@[simp] theorem answerRead_reads (a : ReadAnswer) (s : State) : (answerRead a s).reads = s.reads ++ [a] := rfl

@[simp] theorem hostReset_result (s : State) : (hostReset s).result = .none := rfl
@[simp] theorem hostReset_pending (s : State) : (hostReset s).pending = s.pending := rfl
@[simp] theorem hostReset_reads (s : State) : (hostReset s).reads = s.reads := rfl

@[simp] theorem placeRequest_result (w : RequestWord) (s : State) : (placeRequest w s).result = s.result := rfl
@[simp] theorem placeRequest_pending (w : RequestWord) (s : State) :
    (placeRequest w s).pending = .request w :: s.pending := rfl
@[simp] theorem placeRequest_reads (w : RequestWord) (s : State) : (placeRequest w s).reads = s.reads := rfl

end Sys2Proof.Machine
end

