-- ==== Sys2Proof/Laws/Ops.lean ====
section
/-! SUPPORT. What each shared operation, the two requests, the port and the step can do, said once. -/

namespace Sys2Proof.Machine

/-- What a READ gives back: the field's value, or its fault. -/
theorem answerOf_cases (r : Result) (f : Field) :
    (∃ v, readField r f = some v ∧ answerOf r f = .value v) ∨
    (readField r f = none ∧ answerOf r f = .noValue f) := by
  unfold answerOf
  cases h : readField r f with
  | some v => exact .inl ⟨v, rfl, rfl⟩
  | none => exact .inr ⟨rfl, rfl⟩

/-- All that a READ can do: answer the field's value, or fault on NOVALUE, leaving the fault as the answer. -/
theorem hostRead_cases (f : Field) (s : State) :
    (∃ v, readField s.result f = some v ∧ hostRead f s = .next (answerRead (.value v) s)) ∨
    (readField s.result f = none ∧ hostRead f s = .fault (.noValue f (answerRead (.noValue f) s))) := by
  unfold hostRead
  cases h : readField s.result f with
  | some v => exact .inl ⟨v, rfl, rfl⟩
  | none => exact .inr ⟨rfl, rfl⟩

/-- All that taking an action can do: nothing waits, or the first action and the rest. -/
theorem takeAction_cases (s : State) :
    (s.pending = [] ∧ takeAction s = none) ∨
    ∃ a rest, s.pending = a :: rest ∧ takeAction s = some (a, { s with pending := rest }) := by
  unfold takeAction
  cases h : s.pending with
  | nil => exact .inl ⟨rfl, rfl⟩
  | cons a rest => exact .inr ⟨a, rest, rfl, rfl⟩

/-- All that CLASSIFY can do: write OVF(CLASSIFY) or a CLS result. -/
theorem execClassify_cases (v : Word) (s : State) :
    (classification v = none ∧ execClassify v s = .next (writeResult (.ovf .classify) s)) ∨
    ∃ l h, classification v = some (l, h) ∧ execClassify v s = .next (writeResult (.cls l h) s) := by
  unfold execClassify
  cases hc : classification v with
  | none => exact .inl ⟨rfl, rfl⟩
  | some p => exact .inr ⟨p.1, p.2, rfl, rfl⟩

/-- All that ENCODE can do: write OVF(ENCODE) or an ENC result. -/
theorem execEncode_cases (v : Word) (s : State) :
    (classification v = none ∧ execEncode v s = .next (writeResult (.ovf .encode) s)) ∨
    ∃ l h, classification v = some (l, h) ∧
      execEncode v s = .next (writeResult (.enc l (packLanes l h v)) s) := by
  unfold execEncode
  cases hc : classification v with
  | none => exact .inl ⟨rfl, rfl⟩
  | some p => exact .inr ⟨p.1, p.2, rfl, rfl⟩

/-- Every request answers a next state that differs in RESULT alone. -/
theorem exec_writes_result (i : Instr) (s : State) : ∃ r, exec i s = .next (writeResult r s) := by
  cases i with
  | classify v =>
    rcases execClassify_cases v s with ⟨-, h⟩ | ⟨l, hd, -, h⟩
    · exact ⟨_, h⟩
    · exact ⟨_, h⟩
  | encode v =>
    rcases execEncode_cases v s with ⟨-, h⟩ | ⟨l, hd, -, h⟩
    · exact ⟨_, h⟩
    · exact ⟨_, h⟩

/-- All that a step can do: nothing waits and nothing happens, or the first action is performed on the rest. -/
theorem step_cases (s : State) :
    (s.pending = [] ∧ step s = .next s) ∨
    ∃ a rest, s.pending = a :: rest ∧ step s = perform a { s with pending := rest } := by
  unfold step stepPort
  rcases takeAction_cases s with ⟨hp, ht⟩ | ⟨a, rest, hp, ht⟩
  · exact .inl ⟨hp, by rw [ht]⟩
  · exact .inr ⟨a, rest, hp, by rw [ht]⟩

end Sys2Proof.Machine
end

