-- ==== Sys2Proof/Laws/Packer.lean ====
section
/-! SUPPORT. The bit-packer: its byte operations bit by bit, and what its loop leaves in each lane. -/

namespace Sys2Proof.Machine

/-- A continuation byte is the prefix 10 and the low six bits. -/
theorem continuationByte_eq_append (rem : Word) : continuationByte rem = 0b10#2 ++ rem.extractLsb 5 0 := by
  apply BitVec.eq_of_getLsbD_eq
  intro j hj
  have hr : (0b10#2 ++ rem.extractLsb 5 0 : Byte).getLsbD j =
      if j < 6 then (rem.extractLsb 5 0).getLsbD j else (0b10#2).getLsbD (j - 6) := BitVec.getLsbD_append
  rw [hr]
  interval_cases j <;> simp [continuationByte]

/-- A value below 2^n has no bit from n up. -/
theorem getLsbD_of_toNat_lt (v : Word) (n i : Nat) (h : v.toNat < 2 ^ n) (hi : n ≤ i) : v.getLsbD i = false :=
  Nat.testBit_lt_two_pow (Nat.lt_of_lt_of_le h (Nat.pow_le_pow_right (by decide) hi))

/-- n chunks drop 6n bits. -/
theorem fillContinuation_rem (n : Nat) : ∀ (rem : Word) (b : Lanes),
    (fillContinuation n rem b).1 = rem >>> (6 * n) := by
  induction n with
  | zero => intro rem b; simp [fillContinuation]
  | succ n ih =>
    intro rem b
    rw [fillContinuation, ih, dropChunk, ← BitVec.shiftRight_add]
    congr 1
    omega

/-- The loop leaves lane 0 and the lanes above n as they were. -/
theorem fillContinuation_outside (n : Nat) : ∀ (rem : Word) (b : Lanes) (k : Fin 6), k.val = 0 ∨ n < k.val →
    (fillContinuation n rem b).2[k] = b[k] := by
  induction n with
  | zero => intro rem b k _; rfl
  | succ n ih =>
    intro rem b k hk
    rw [fillContinuation, ih _ _ k (by omega)]
    simp only [Fin.getElem_fin, Vector.getElem_setIfInBounds]
    exact if_neg (by omega)

/-- Lane k of 1..n holds the continuation byte of the chunk that lies 6(n-k) bits up. -/
theorem fillContinuation_inside (n : Nat) : ∀ (rem : Word) (b : Lanes) (k : Fin 6), 1 ≤ k.val → k.val ≤ n →
    (fillContinuation n rem b).2[k] = continuationByte (rem >>> (6 * (n - k.val))) := by
  induction n with
  | zero => intro rem b k h1 h2; omega
  | succ n ih =>
    intro rem b k h1 h2
    rw [fillContinuation]
    by_cases hk : k.val = n + 1
    · rw [fillContinuation_outside _ _ _ _ (by omega)]
      simp only [Fin.getElem_fin, Vector.getElem_setIfInBounds]
      rw [if_pos hk.symm]
      simp [hk]
    · rw [ih _ _ k h1 (by omega), dropChunk, ← BitVec.shiftRight_add]
      congr 2
      omega

/-- Lane 0 of a packed sequence: the header byte of what is left of the value. -/
theorem packLanes_header (l : LengthClass) (h : Header) (v : Word) :
    (packLanes l h v)[0] = headerByte (headerCode h) (v >>> (6 * (lengthNat l - 1))) := by
  have hr := fillContinuation_rem (lengthNat l - 1) v zeroLanes
  unfold packLanes
  generalize fillContinuation (lengthNat l - 1) v zeroLanes = p at hr
  obtain ⟨rem, b⟩ := p
  simp only [Vector.getElem_setIfInBounds, if_true]
  rw [← hr]

/-- The lanes other than 0 are the loop's. -/
theorem packLanes_other (l : LengthClass) (h : Header) (v : Word) (k : Fin 6) (hk : 1 ≤ k.val) :
    (packLanes l h v)[k] = (fillContinuation (lengthNat l - 1) v zeroLanes).2[k] := by
  unfold packLanes
  generalize fillContinuation (lengthNat l - 1) v zeroLanes = p
  obtain ⟨rem, b⟩ := p
  simp only [Fin.getElem_fin, Vector.getElem_setIfInBounds]
  exact if_neg (by omega)

/-- Lane k of 1..L-1 is the continuation byte of the chunk 6(L-1-k) bits up. -/
theorem packLanes_continuation (l : LengthClass) (h : Header) (v : Word) (k : Fin 6) (h1 : 1 ≤ k.val)
    (h2 : k.val < lengthNat l) :
    (packLanes l h v)[k] = continuationByte (v >>> (6 * (lengthNat l - 1 - k.val))) := by
  rw [packLanes_other l h v k h1, fillContinuation_inside _ _ _ k h1 (by omega)]

/-- The lanes from L up are zero. -/
theorem packLanes_trailing (l : LengthClass) (h : Header) (v : Word) (k : Fin 6) (h1 : lengthNat l ≤ k.val) :
    (packLanes l h v)[k] = 0x00#8 := by
  have hl : 1 ≤ lengthNat l := by cases l <;> decide
  rw [packLanes_other l h v k (by omega), fillContinuation_outside _ _ _ k (by omega)]
  simp [zeroLanes]

end Sys2Proof.Machine
end

