-- ==== Sys2Proof/Laws/PerInstr.lean ====
section
/-! SUPPORT. Statements about every request as syntax, one lemma per constructor. -/

namespace Sys2Proof.Laws.ValueKept

/-- The encoder puts VALUE unchanged into bits 31:0 (30_encoding.md R30, R32). -/
def Statement (i : Instr) : Prop := requestValue (encodeRequest i) = i.value

theorem classify (value : Word) : Statement (.classify value) := requestValue_makeRequest 0#1 value

theorem encode (value : Word) : Statement (.encode value) := requestValue_makeRequest 1#1 value

end Sys2Proof.Laws.ValueKept

namespace Sys2Proof.Laws.OpcodeKept

/-- The OP code of a request (30_encoding.md R31). -/
def opOf : Instr → Bool
  | .classify _ => false
  | .encode _ => true

/-- The encoder puts the OP code into bit 32 (30_encoding.md R30, R31). -/
def Statement (i : Instr) : Prop := requestOp (encodeRequest i) = opOf i

theorem classify (value : Word) : Statement (.classify value) := requestOp_makeRequest 0#1 value

theorem encode (value : Word) : Statement (.encode value) := requestOp_makeRequest 1#1 value

end Sys2Proof.Laws.OpcodeKept
end

