-- ==== Sys2Proof/Laws/Run.lean ====
section
/-! SUPPORT. Runs: the host's run of the machine one step at a time, lists of actions in two parts, and an action's
independence of the actions that wait behind it. -/

namespace Sys2Proof.Machine

theorem core_run_zero (s : State) : (core.run 0 s : Host.Outcome State Fault Refusal) = .next s := rfl

theorem run_next (m : Host.Core) (k : Nat) (s t : m.State) (h : m.step s = .next t) : m.run (k + 1) s = m.run k t := by
  rw [Host.Core.run, h]

theorem run_fault (m : Host.Core) (k : Nat) (s : m.State) (r : m.Fault) (h : m.step s = .fault r) :
    m.run (k + 1) s = .fault r := by
  rw [Host.Core.run, h]

theorem core_run_next (k : Nat) (s t : State) (h : step s = .next t) :
    (core.run (k + 1) s : Host.Outcome State Fault Refusal) = core.run k t := run_next core k s t h

theorem core_run_fault (k : Nat) (s : State) (r : Fault) (h : step s = .fault r) :
    (core.run (k + 1) s : Host.Outcome State Fault Refusal) = .fault r := run_fault core k s r h

/-- All that performing an action can do in a list: it leaves a state, by a next state or by the fault of a READ. -/
theorem performAll_cons (a : HostAction) (rest : List HostAction) (s : State) : ∃ t,
    (perform a s = .next t ∨ ∃ f, perform a s = .fault (.noValue f t)) ∧
    performAll (a :: rest) s = performAll rest t := by
  cases a with
  | request w =>
    obtain ⟨r, h⟩ := exec_writes_result (decode w) s
    have hp : perform (.request w) s = .next (writeResult r s) := h
    exact ⟨_, .inl hp, by simp only [performAll, hp]⟩
  | read f =>
    rcases hostRead_cases f s with ⟨v, -, h⟩ | ⟨-, h⟩
    · have hp : perform (.read f) s = .next (answerRead (.value v) s) := h
      exact ⟨_, .inl hp, by simp only [performAll, hp]⟩
    · have hp : perform (.read f) s = .fault (.noValue f (answerRead (.noValue f) s)) := h
      exact ⟨_, .inr ⟨f, hp⟩, by simp only [performAll, hp]⟩
  | reset => exact ⟨hostReset s, .inl rfl, rfl⟩

/-- Performing two lists is performing the one, then the other. -/
theorem performAll_append (bs : List HostAction) (as : List HostAction) : ∀ s, ∃ t,
    performAll as s = .next t ∧ performAll (as ++ bs) s = performAll bs t := by
  induction as with
  | nil => intro s; exact ⟨s, rfl, rfl⟩
  | cons a as ih =>
    intro s
    have hc := performAll_cons a as s
    obtain ⟨t, ht, h1⟩ := hc
    obtain ⟨u, hu, h2⟩ := ih t
    refine ⟨u, h1.trans hu, ?_⟩
    rw [← h2]
    rcases ht with h | ⟨f, h⟩
    · simp only [List.cons_append, performAll, h]
    · simp only [List.cons_append, performAll, h]

/-- An action neither reads nor changes the actions that wait. -/
theorem perform_pending (a : HostAction) (s : State) (p : List HostAction) : perform a { s with pending := p } =
    match perform a s with
    | .next t => .next { t with pending := p }
    | .fault (.noValue f t) => .fault (.noValue f { t with pending := p })
    | .refused r => .refused r := by
  cases a with
  | request w =>
    show exec (decode w) { s with pending := p } = match exec (decode w) s with
      | .next t => .next { t with pending := p }
      | .fault (.noValue f t) => .fault (.noValue f { t with pending := p })
      | .refused r => .refused r
    cases decode w with
    | classify v =>
      simp only [exec, execClassify]
      cases classification v with
      | none => rfl
      | some c => rfl
    | encode v =>
      simp only [exec, execEncode]
      cases classification v with
      | none => rfl
      | some c => rfl
  | read f =>
    simp only [perform, hostRead]
    cases readField s.result f with
    | none => rfl
    | some v => rfl
  | reset => rfl

end Sys2Proof.Machine
end

