-- ==== Sys2Proof/Tests/Slice0.lean ====
section
/-! SUPPORT. Tests, with expected results from spec/95_test_vectors.md or written out by hand from the named rule; the
checks' smoke tests; and, for each statement with hypotheses, a witness that meets them (witness_<statement>). -/

namespace Sys2Proof.Tests

open Sys2Proof Sys2Proof.Machine

/-- A machine with RESULT = r and one action waiting. -/
def waiting (r : Result) (a : HostAction) : State := ⟨r, [a], []⟩

/-! The smoke tests of WellFormed: an ill-formed term for each check. -/

/-- 2^33 does not fit 33 bits (30_encoding.md R30). -/
theorem test_wf_wide_request_refused : requestFits 0x200000000 = false := by decide

/-- 0x100000000 is above 0xFFFFFFFF (30_encoding.md R40). -/
theorem test_wf_literal_out_of_range_refused :
    literalInRange (.hex [1, 0, 0, 0, 0, 0, 0, 0, 0]) = false ∧
    literalInRange (.dec [4, 2, 9, 4, 9, 6, 7, 2, 9, 6]) = false := by decide

theorem test_wf_literal_without_digits_refused : literalHasDigits (.hex []) = false ∧ literalHasDigits (.dec []) = false := by
  decide

/-- BYTE[6] is no field (10_state.md R12). -/
theorem test_wf_lane_six_refused : asmFieldOk (.byte 6) = false := by decide

theorem test_wf_lines_refused :
    asmLineOk (.classify (.hex [1, 0, 0, 0, 0, 0, 0, 0, 0])) = false ∧ asmLineOk (.encode (.dec [])) = false ∧
    asmLineOk (.read (.byte 6)) = false := by decide

/-- Decimal 2147483648 is 0x80000000 (30_encoding.md R40). -/
theorem test_literal_bases_agree :
    literalValue (.dec [2, 1, 4, 7, 4, 8, 3, 6, 4, 8]) = literalValue (.hex [8, 0, 0, 0, 0, 0, 0, 0]) := by decide

/-! Decoding: words of 95_test_vectors.md section 1, rows 9 and 1, bit by bit; and a word one bit too wide. -/

theorem test_decode_classify :
    decodeTableWord 40 0b0_10000000_00000000_00000000_00000000 = some (.classify 0x80000000#32) := by decide

theorem test_decode_encode :
    decodeTableWord 40 0b1_00000000_00000000_00000000_10101001 = some (.encode 0xA9#32) := by decide

theorem test_decode_refuses_wide : decodeBits 40 0b10_00000000_00000000_00000000_00000000 = .error .widerThanRequest := by
  decide

/-- Each encoded request lands on its row's match bits (spec/opcode_table.json). -/
theorem test_encoder_words :
    encodeRequest (.classify 0x800#32) = 0x000000800#33 ∧ encodeRequest (.encode 0x7DEADA55#32) = 0x17DEADA55#33 := by decide

/-! One step: a request as the first action after reset, and each request at a boundary. -/

/-- 95_test_vectors.md section 2.1: CLASSIFY 0x800, the bottom of row 3. -/
theorem test_classify_bottom_of_row_three :
    step (State.reset.withFetchWord 40 0x000000800) = .next ⟨.cls .three .xE0, [], []⟩ := by rfl

/-- 95_test_vectors.md section 2.1: CLASSIFY 0x80000000 is the smallest Overflow; the earlier result is lost. -/
theorem test_classify_overflow :
    step (waiting (.cls .one .x00) (.request 0x080000000#33)) = .next ⟨.ovf .classify, [], []⟩ := by rfl

/-- 95_test_vectors.md section 1, row 7: all six lanes. -/
theorem test_encode_six_lanes :
    step (State.reset.withFetchWord 40 0x17DEADA55) =
      .next ⟨.enc .six #v[0xFD#8, 0xBD#8, 0xBA#8, 0xAD#8, 0xA9#8, 0x95#8], [], []⟩ := by rfl

/-- 95_test_vectors.md section 2.2: ENCODE 0xD800, a value outside RFC 3629, is not rejected. -/
theorem test_encode_surrogate :
    step (waiting (.ovf .classify) (.request 0x10000D800#33)) =
      .next ⟨.enc .three #v[0xED#8, 0xA0#8, 0x80#8, 0x00#8, 0x00#8, 0x00#8], [], []⟩ := by rfl

/-- 95_test_vectors.md section 2.4: LEN faults after an Overflow, HDR after ENCODE. -/
theorem test_novalue_reads_fault :
    step (waiting (.ovf .encode) (.read .len)) = .fault (.noValue .len ⟨.ovf .encode, [], [.noValue .len]⟩) ∧
    step (waiting (.enc .one zeroLanes) (.read .hdr)) =
      .fault (.noValue .hdr ⟨.enc .one zeroLanes, [], [.noValue .hdr]⟩) := ⟨rfl, rfl⟩

/-- 10_state.md R13: a trailing lane reads as 0x00, not as NOVALUE (95_test_vectors.md section 2.4). -/
theorem test_trailing_lane_reads_zero :
    step (waiting (.enc .two #v[0xC2#8, 0xA9#8, 0x00#8, 0x00#8, 0x00#8, 0x00#8]) (.read (.lane 5))) =
      .next ⟨.enc .two #v[0xC2#8, 0xA9#8, 0x00#8, 0x00#8, 0x00#8, 0x00#8], [], [.value (.lane 5 0x00#8)]⟩ := rfl

/-! Witnesses: concrete values that meet the hypotheses of each statement that has some, clause by clause. -/

theorem witness_DecoderFollowsOpTable :
    (0x0FFFFFFFF#33).getLsbD 32 = false ∧ (0x100000000#33).getLsbD 32 = true := by decide

theorem witness_EncodeAndDecodeAreInverse : 33 ≤ 33 := by decide

theorem witness_RawBitsReadExactlyWhenTheyFit : 0x1FFFFFFFF % 2 ^ 40 < 2 ^ 33 ∧ 2 ^ 33 ≤ 0x200000000 % 2 ^ 40 := by decide

theorem witness_EveryRequestWordIsLegal :
    ((0x080000000#33).getLsbD 31 = true ∧ (0x080000000#33).getLsbD 32 = false) ∧
    ((0x180000000#33).getLsbD 31 = true ∧ (0x180000000#33).getLsbD 32 = true) := by decide

theorem witness_AssemblerEmitsOpAndValue :
    literalHasDigits (.hex [15, 15, 15, 15, 15, 15, 15, 15]) = true ∧
    literalValue (.hex [15, 15, 15, 15, 15, 15, 15, 15]) ≤ 0xFFFFFFFF := by decide

theorem witness_AssemblerRefusesIllFormedLines :
    literalHasDigits (.hex [1, 0, 0, 0, 0, 0, 0, 0, 0]) = true ∧
    0xFFFFFFFF < literalValue (.hex [1, 0, 0, 0, 0, 0, 0, 0, 0]) := by decide

theorem witness_ResetLeavesResultNone : Field.status ≠ .kind := by decide

theorem witness_ResetActionClearsOnlyResult : (waiting (.ovf .encode) .reset).pending = .reset :: [] := rfl

theorem witness_FieldsOfEachForm : Field.lane 5 ≠ .kind := by decide

theorem witness_FieldCodesStayInTheirTables :
    lenField (.cls .six .xFC) = some 6#3 ∧ hdrField (.cls .six .xFC) = some 0xFC#8 ∧
    (2#2 ≠ 3#2) ∧ (1#3 ≠ 0#3 ∧ 1#3 ≠ 7#3) ∧ (6#3 ≠ 0#3 ∧ 6#3 ≠ 7#3) := by decide

theorem witness_ReadReturnsValueOrFaults :
    (waiting .none (.read .kind)).pending = .read .kind :: [] ∧ readField .none .kind = some (.kind 0#2) ∧
    (waiting .none (.read .len)).pending = .read .len :: [] ∧ readField .none .len = none := ⟨rfl, rfl, rfl, rfl⟩

theorem witness_RepeatedReadGivesSameAnswer :
    (⟨.cls .three .xE0, [.read .hdr, .read .hdr], []⟩ : State).pending = .read .hdr :: .read .hdr :: [] ∧
    readField (.cls .three .xE0) .hdr = some (.hdr 0xE0#8) := ⟨rfl, rfl⟩

theorem witness_StepRunsDecodedRequest :
    (waiting .none (.request 0x1000000A9#33)).pending = .request 0x1000000A9#33 :: [] ∧
    decodeTableWord 40 0x1000000A9 = some (.encode 0xA9#32) := ⟨rfl, by decide⟩

theorem witness_IdleStepChangesNothing : State.reset.pending = [] := rfl

theorem witness_ActionsPerformedInOrder :
    step (waiting .none (.request 0x00000007F#33)) = .next ⟨.cls .one .x00, [], []⟩ ∧
    (⟨.none, [.request 0x00000007F#33, .read .len, .read .hdr], []⟩ : State).pending =
      .request 0x00000007F#33 :: ([Field.len, Field.hdr].map .read ++ []) ∧
    [Field.len, Field.hdr].mapM (readField (combinationalResult (decode 0x00000007F#33))) =
      some [.len 1#3, .hdr 0x00#8] := ⟨rfl, rfl, by decide⟩

/-- Both ends of every row. -/
theorem witness_ClassTableHasTheSixRows :
    (0x7F#32 ≤ 0x7F#32) ∧ (0x80#32 ≤ 0x80#32 ∧ 0x80#32 ≤ 0x7FF#32) ∧ (0x80#32 ≤ 0x7FF#32 ∧ 0x7FF#32 ≤ 0x7FF#32) ∧
    (0x800#32 ≤ 0x800#32 ∧ 0x800#32 ≤ 0xFFFF#32) ∧ (0x10000#32 ≤ 0x10000#32 ∧ 0x10000#32 ≤ 0x1FFFFF#32) ∧
    (0x200000#32 ≤ 0x200000#32 ∧ 0x200000#32 ≤ 0x3FFFFFF#32) ∧
    (0x4000000#32 ≤ 0x4000000#32 ∧ 0x4000000#32 ≤ 0x7FFFFFFF#32) ∧
    (0x4000000#32 ≤ 0x7FFFFFFF#32 ∧ 0x7FFFFFFF#32 ≤ 0x7FFFFFFF#32) := by decide

theorem witness_RangesPartitionTheDomain :
    (0x7FFFFFFF#32 ≤ 0x7FFFFFFF#32) ∧
    (⟨0x0#32, 0x7F#32, .one, .x00⟩ : RangeRow) ∈ rangeTable ∧ rowHolds ⟨0x0#32, 0x7F#32, .one, .x00⟩ 0x7F#32 = true ∧
    rangeTable[4]? = some ⟨0x200000#32, 0x3FFFFFF#32, .five, .xF8⟩ ∧
    rangeTable[4 + 1]? = some ⟨0x4000000#32, 0x7FFFFFFF#32, .six, .xFC⟩ := ⟨by decide, by decide, by decide, rfl, rfl⟩

/-- Bit 31 set; and the top of the table held by its row. -/
theorem witness_ClassifyWritesItsRowOrOverflow :
    (0x80000000#32).getLsbD 31 = true ∧ (0x7FFFFFFF#32).getLsbD 31 = false ∧
    (⟨0x4000000#32, 0x7FFFFFFF#32, .six, .xFC⟩ : RangeRow) ∈ rangeTable ∧
    rowHolds ⟨0x4000000#32, 0x7FFFFFFF#32, .six, .xFC⟩ 0x7FFFFFFF#32 = true := by decide

/-- A value at the top of each row has the bit length of its clause (40_classifier.md R48). -/
theorem witness_LengthIsFixedByBitLength :
    bitLength 0x0#32 = 0 ∧ bitLength 0x7F#32 = 7 ∧ bitLength 0x80#32 = 8 ∧ bitLength 0x7FF#32 = 11 ∧
    bitLength 0x800#32 = 12 ∧ bitLength 0xFFFF#32 = 16 ∧ bitLength 0x10000#32 = 17 ∧ bitLength 0x1FFFFF#32 = 21 ∧
    bitLength 0x200000#32 = 22 ∧ bitLength 0x3FFFFFF#32 = 26 ∧ bitLength 0x4000000#32 = 27 ∧
    bitLength 0x7FFFFFFF#32 = 31 := by decide

theorem witness_HeaderHasItsClosedForm : 5 < 8 - leadingOnes (headerCode (headerOf .two)) := by decide

theorem witness_HeaderMaskHasItsValues : 7 < 8 := by decide

theorem witness_ClassifierPicksTheShortestLength :
    (0x7F#32 ≤ 0x7FFFFFFF#32) ∧ (0x7F#32).toNat < 2 ^ sequenceBits .one := by decide

theorem witness_EncodeWritesItsSequenceOrOverflow :
    (0xFFFFFFFF#32).getLsbD 31 = true ∧ (0x80#32).getLsbD 31 = false ∧
    (⟨0x80#32, 0x7FF#32, .two, .xC0⟩ : RangeRow) ∈ rangeTable ∧
    rowHolds ⟨0x80#32, 0x7FF#32, .two, .xC0⟩ 0x80#32 = true := by decide

theorem witness_EncodeOverflowFormsNoByte : (0x80000000#32).getLsbD 31 = true := by decide

theorem witness_RemainingValueFitsTheHeader :
    classification 0x7FFFFFFF#32 = some (.six, .xFC) ∧ classification 0x0#32 = some (.one, .x00) := by decide

theorem witness_TrailingLanesHoldZero :
    (0x3FFFFFF#32 ≤ 0x7FFFFFFF#32) ∧ lengthNat (classTable 0x3FFFFFF#32).1 ≤ (5 : Fin 6).val := by decide

theorem witness_AsciiPassesThrough : (0x7F#32 ≤ 0x7F#32) := by decide

theorem witness_EncodeLeavesTheClassifiedLength : (0x7FFFFFFF#32 ≤ 0x7FFFFFFF#32) := by decide

theorem witness_HeaderBitsAppearInByteZero : (0x7FFFFFFF#32 ≤ 0x7FFFFFFF#32) := by decide

theorem witness_ContinuationLanesHaveTheirPrefix :
    (0x80#32 ≤ 0x7FFFFFFF#32) ∧ 1 ≤ (1 : Fin 6).val ∧ (1 : Fin 6).val < lengthNat (classTable 0x80#32).1 ∧
    (2 : Fin 6).val = lengthNat (classTable 0x80#32).1 := by decide

theorem witness_PayloadBitsRestoreTheValue : (0x7FFFFFFF#32 ≤ 0x7FFFFFFF#32) := by decide

theorem witness_EncodingIsOneToOne :
    exec (.encode 0x61#32) State.reset =
      .next ⟨.enc .one #v[0x61#8, 0x00#8, 0x00#8, 0x00#8, 0x00#8, 0x00#8], [], []⟩ := rfl

theorem witness_OutputTellsItsOwnLength :
    (0x4000000#32 ≤ 0x7FFFFFFF#32) ∧ leadingOnes (packLanes .one .x00 0x7F#32)[0] = 0 ∧
    leadingOnes (packLanes .six .xFC 0x4000000#32)[0] = 6 := by decide

/-- The lowest value of rows 3 to 6, whose lane 0 is the bare header (30_encoding.md R39). -/
theorem witness_SomeBytesAreNeverProduced :
    exec (.encode 0x800#32) State.reset =
      .next ⟨.enc .three #v[0xE0#8, 0xA0#8, 0x80#8, 0x00#8, 0x00#8, 0x00#8], [], []⟩ ∧
    exec (.encode 0x10000#32) State.reset =
      .next ⟨.enc .four #v[0xF0#8, 0x90#8, 0x80#8, 0x80#8, 0x00#8, 0x00#8], [], []⟩ ∧
    exec (.encode 0x200000#32) State.reset =
      .next ⟨.enc .five #v[0xF8#8, 0x88#8, 0x80#8, 0x80#8, 0x80#8, 0x00#8], [], []⟩ ∧
    exec (.encode 0x4000000#32) State.reset =
      .next ⟨.enc .six #v[0xFC#8, 0x84#8, 0x80#8, 0x80#8, 0x80#8, 0x80#8], [], []⟩ := ⟨rfl, rfl, rfl, rfl⟩

theorem witness_NoValueInTheDomainIsRejected : (0x110000#32 ≤ 0x7FFFFFFF#32) ∧ (0x10FFFF#32 < 0x110000#32) := by decide

theorem witness_RequestWritesOneWholeResult :
    (Instr.classify 0x80000000#32).value.getLsbD 31 = true ∧ (Instr.encode 0x7FFFFFFF#32).value.getLsbD 31 = false := by
  decide

theorem witness_OverflowStopsNothing :
    (waiting (.ovf .encode) (.request 0x07FFFFFFF#33)).pending = .request 0x07FFFFFFF#33 :: [] ∧
    (waiting (.ovf .encode) (.read .kind)).pending = .read .kind :: [] ∧
    (waiting (.ovf .encode) (.read .len)).pending = .read .len :: [] := ⟨rfl, rfl, rfl⟩

theorem witness_OnlyNovalueReadsFault :
    step (waiting .none (.read .status)) = .fault (.noValue .status ⟨.none, [], [.noValue .status]⟩) := rfl

theorem witness_OnlyRequestsAndResetWriteResult :
    step (waiting (.ovf .encode) .reset) = .next State.reset ∧ step State.reset = .next State.reset := ⟨rfl, rfl⟩

theorem witness_StepKeepsResultInFormat :
    (waiting (.cls .two .xC0) (.request 0x1000000A9#33)).InFormat ∧
    step (waiting (.cls .two .xC0) (.request 0x1000000A9#33)) =
      .next ⟨.enc .two #v[0xC2#8, 0xA9#8, 0x00#8, 0x00#8, 0x00#8, 0x00#8], [], []⟩ ∧
    (waiting (.cls .two .xC0) (.read (.lane 0))).InFormat ∧
    step (waiting (.cls .two .xC0) (.read (.lane 0))) =
      .fault (.noValue (.lane 0) ⟨.cls .two .xC0, [], [.noValue (.lane 0)]⟩) := ⟨by decide, rfl, by decide, rfl⟩

theorem witness_StepKeepsResultProduced :
    (waiting (.ovf .classify) (.read .kind)).Produced ∧
    step (waiting (.ovf .classify) (.read .kind)) = .next ⟨.ovf .classify, [], [.value (.kind 1#2)]⟩ ∧
    step (waiting (.ovf .classify) (.read .hdr)) =
      .fault (.noValue .hdr ⟨.ovf .classify, [], [.noValue .hdr]⟩) :=
  ⟨.inr ⟨.classify 0x80000000#32, ⟨.ovf .classify, [], []⟩, rfl, rfl⟩, rfl, rfl⟩

theorem witness_ProducedResultsAreInFormat : (waiting (.ovf .classify) .reset).Produced :=
  .inr ⟨.classify 0x80000000#32, ⟨.ovf .classify, [], []⟩, rfl, rfl⟩

theorem witness_EarlierActionsLeaveNoTrace :
    performAll ([.request 0x180000000#33, .read .kind] ++ [.request 0x000000800#33]) State.reset =
      .next ⟨.cls .three .xE0, [], [.value (.kind 2#2)]⟩ ∧
    performAll ([.reset] ++ [.request 0x000000800#33]) State.reset = .next ⟨.cls .three .xE0, [], []⟩ := ⟨rfl, rfl⟩

theorem witness_RequestsAndResetsRunToTheEnd :
    ∀ a ∈ (⟨.none, [.request 0x1000000A9#33, .reset], []⟩ : State).pending, writesResult a = true := by decide

theorem witness_SteppingPerformsTheList :
    (⟨.none, [.request 0x000000800#33, .read .len], []⟩ : State).pending.length ≤ 2 ∧
    faultFree (answersFrom .none [.request 0x000000800#33, .read .len]) = true ∧
    (⟨.none, [.read .len, .request 0x000000800#33], []⟩ : State).pending.length ≤ 2 ∧
    faultFree (answersFrom .none [.read .len, .request 0x000000800#33]) = false := by decide

/-- Both sides of the equivalence occur; the second list goes on after its fault (log entry 12). -/
theorem witness_ListOfActionsEndsAfterItsLast :
    faultFree (answersFrom .none [.request 0x000000800#33, .read .len]) = true ∧
    faultFree (answersFrom .none [.read .len, .request 0x000000800#33]) = false ∧
    performAll [.read .len, .request 0x000000800#33] State.reset = .next ⟨.cls .three .xE0, [], [.noValue .len]⟩ ∧
    [HostAction.request 0x000000800#33, .read .len] = [.request 0x000000800#33] ++ .read .len :: [] :=
  ⟨by decide, by decide, rfl, rfl⟩

end Sys2Proof.Tests
end

section
/-! The parameters of the block (00_scope.md R7): widths as ranges of numbers, length classes as a range, and the
operations counted by their OP codes. -/

namespace Sys2Proof.Machine

/-- The numbers below `2 ^ w` are the values of the words of width `w`. -/
theorem lt_two_pow_iff_exists_toNat (w n : Nat) : n < 2 ^ w ↔ ∃ v : BitVec w, v.toNat = n := by
  constructor
  · intro h
    exact ⟨BitVec.ofNatLT n h, BitVec.toNat_ofNatLT n h⟩
  · rintro ⟨v, rfl⟩
    exact v.isLt

theorem lengthNat_bounds (l : LengthClass) : 1 ≤ lengthNat l ∧ lengthNat l ≤ Config.maxLen := by
  cases l <;> decide

/-- Both values of OP stand in the request word of some request (30_encoding.md R31). -/
theorem requestOp_encodeRequest_surjective : Function.Surjective fun i => requestOp (encodeRequest i)
  | false => ⟨.classify 0#32, Laws.OpcodeKept.classify 0#32⟩
  | true => ⟨.encode 0#32, Laws.OpcodeKept.encode 0#32⟩

/-- The number of a request's operation: the OP bit of its request word, as 0 or 1. -/
def operationCode (i : Instr) : Fin Config.operationCount := finTwoEquiv.symm (requestOp (encodeRequest i))

theorem operationCode_surjective : Function.Surjective operationCode :=
  finTwoEquiv.symm.surjective.comp requestOp_encodeRequest_surjective

theorem operationCode_eq_iff (i j : Instr) :
    operationCode i = operationCode j ↔ requestOp (encodeRequest i) = requestOp (encodeRequest j) :=
  finTwoEquiv.symm.apply_eq_iff_eq

/-- Settles O9: each width by `lt_two_pow_iff_exists_toNat`, the Overflow test by `overflows_iff`, and the operations
numbered by their OP bit. -/
theorem parametersHaveTheirValues : Obligations.ParametersHaveTheirValues := by
  refine ⟨?valueWidth, ?byteWidth, ?lenWidth, ?requestWidth, ?domainMax, ?maxLen, ?maxLenReached, ?capacity, ?operations⟩
  case valueWidth => exact lt_two_pow_iff_exists_toNat Config.valueWidth
  case byteWidth => exact lt_two_pow_iff_exists_toNat Config.byteWidth
  case lenWidth => exact lt_two_pow_iff_exists_toNat Config.lenWidth
  case requestWidth => exact lt_two_pow_iff_exists_toNat Config.requestWidth
  case domainMax => exact overflows_iff
  case maxLen => exact lengthNat_bounds
  case maxLenReached => exact ⟨.six, rfl⟩
  case capacity => exact fun b => b.length_toList
  case operations => exact ⟨operationCode, operationCode_surjective, operationCode_eq_iff⟩

end Sys2Proof.Machine
end

section
/-! The closed forms of a request's outcome: the length class by the bit length (40_classifier.md R48), the header by the
length (R44), the lanes by the bit placement (30_encoding.md R37). -/

namespace Sys2Proof.Machine

theorem bitLengthBelow_le_iff (v : Word) (k n : Nat) :
    bitLengthBelow v n ≤ k ↔ ∀ j, k ≤ j → j < n → v.getLsbD j = false := by
  induction n with
  | zero => simp [bitLengthBelow]
  | succ n ih =>
    rw [bitLengthBelow]
    split
    · next hset =>
      constructor
      · intro hk j hkj hj
        omega
      · intro hclear
        by_contra hk
        simp [hclear n (by omega) n.lt_succ_self] at hset
    · next hclear =>
      rw [ih]
      constructor
      · intro h j hkj hj
        rcases Nat.lt_succ_iff_lt_or_eq.mp hj with hj | rfl
        · exact h j hkj hj
        · exact Bool.eq_false_of_not_eq_true hclear
      · exact fun h j hkj hj => h j hkj (by omega)

/-- The bit length of a word is at most k exactly when the word lies below 2^k (40_classifier.md R48). -/
theorem bitLength_le_iff (v : Word) (k : Nat) : bitLength v ≤ k ↔ v.toNat < 2 ^ k := by
  rw [bitLength, bitLengthBelow_le_iff]
  constructor
  · intro hclear
    refine Nat.lt_pow_two_of_testBit _ fun j hkj => ?_
    by_cases hj : j < 32
    · exact hclear j hkj hj
    · exact v.getLsbD_of_ge j (by omega)
  · exact fun hv j hkj _ => getLsbD_of_toNat_lt v k j hv hkj

/-- The inclusive upper end of a row, all ones below 2^k, bounds the bit length by k (40_classifier.md R48). -/
theorem le_iff_bitLength_le (v c : Word) (k : Nat) (hc : c.toNat + 1 = 2 ^ k) : v ≤ c ↔ bitLength v ≤ k := by
  rw [bitLength_le_iff, BitVec.le_def]
  omega

/-- The classifier in closed form: the length by the bit length, the header by the length (40_classifier.md R48, R44). -/
theorem classification_eq_lengthOfBits (v : Word) :
    classification v = (lengthOfBits (bitLength v)).map fun l => (l, headerOf l) := by
  have hover : overflows v = true ↔ ¬ bitLength v ≤ 31 := by
    rw [overflows_iff, ← le_iff_bitLength_le v 0x7FFFFFFF#32 31 rfl, BitVec.not_le]
  unfold classification classTable lengthOfBits
  simp only [hover, le_iff_bitLength_le v 0x7F#32 7 rfl, le_iff_bitLength_le v 0x7FF#32 11 rfl,
    le_iff_bitLength_le v 0xFFFF#32 16 rfl, le_iff_bitLength_le v 0x1FFFFF#32 21 rfl,
    le_iff_bitLength_le v 0x3FFFFFF#32 26 rfl]
  by_cases hv : bitLength v ≤ 31
  · rw [if_neg (not_not_intro hv), if_pos hv]
    split_ifs <;> rfl
  · rw [if_pos hv, if_neg hv]
    iterate 5 rw [if_neg (by omega)]
    rfl

theorem le_sequenceBits_of_lengthOfBits {n : Nat} {l : LengthClass} (h : lengthOfBits n = some l) :
    n ≤ sequenceBits l := by
  unfold lengthOfBits at h
  split_ifs at h <;> cases h <;> assumption

/-- A value of length class L fits the payload bits of a sequence of that length (40_classifier.md R50, R52). -/
theorem toNat_lt_of_lengthOfBits {v : Word} {l : LengthClass} (h : lengthOfBits (bitLength v) = some l) :
    v.toNat < 2 ^ sequenceBits l :=
  (bitLength_le_iff v _).mp (le_sequenceBits_of_lengthOfBits h)

/-- After the loop what remains of the value fits the free bits of the header (41_encoder.md R57). -/
theorem remaining_lt {v : Word} {l : LengthClass} (hv : v.toNat < 2 ^ sequenceBits l) :
    (v >>> (6 * (lengthNat l - 1))).toNat < 2 ^ payloadBits l := by
  rw [BitVec.toNat_ushiftRight, Nat.shiftRight_eq_div_pow]
  exact Nat.div_lt_of_lt_mul (by rwa [← Nat.pow_add])

theorem headerByte_getLsbD (h : Byte) (rem : Word) {j : Nat} (hj : j < 8) :
    (headerByte h rem).getLsbD j = (h.getLsbD j || rem.getLsbD j) := by
  rw [headerByte, BitVec.getLsbD_or, BitVec.getLsbD_extractLsb]
  simp [hj]

/-- A header with n free bits, with a remaining value that fits them: the header's bits, then the remaining value's. -/
theorem headerByte_eq_append {m n : Nat} (hw : m + n = 8) (p : BitVec m) {rem : Word} (hrem : rem.toNat < 2 ^ n) :
    headerByte ((p ++ 0#n).cast hw) rem = (p ++ rem.extractLsb' 0 n).cast hw := by
  apply BitVec.eq_of_getLsbD_eq
  intro j hj
  rw [headerByte_getLsbD _ _ hj, BitVec.getLsbD_cast, BitVec.getLsbD_cast, BitVec.getLsbD_append,
    BitVec.getLsbD_append]
  split
  · next hlow => simp [hlow]
  · next hhigh => rw [getLsbD_of_toNat_lt rem n j hrem (by omega), Bool.or_false]

/-- Lane 0 of the bit placement is the header byte of what the chunks leave (30_encoding.md R37, 41_encoder.md R57). -/
theorem placement_header {l : LengthClass} {v : Word} (hv : v.toNat < 2 ^ sequenceBits l) :
    (placement l v)[0] = headerByte (headerCode (headerOf l)) (v >>> (6 * (lengthNat l - 1))) := by
  have hrem := remaining_lt hv
  cases l with
  | one => exact (headerByte_eq_append rfl 0b0#1 hrem).symm
  | two => exact (headerByte_eq_append rfl 0b110#3 hrem).symm
  | three => exact (headerByte_eq_append rfl 0b1110#4 hrem).symm
  | four => exact (headerByte_eq_append rfl 0b11110#5 hrem).symm
  | five => exact (headerByte_eq_append rfl 0b111110#6 hrem).symm
  | six => exact (headerByte_eq_append rfl 0b1111110#7 hrem).symm

/-- A continuation byte of the chunk n bits up holds that slice of the value (30_encoding.md R37). -/
theorem continuationByte_shiftRight (v : Word) (n : Nat) :
    continuationByte (v >>> n) = 0b10#2 ++ v.extractLsb' n 6 := continuationByte_eq_append _

/-- The other lanes of the bit placement: a chunk with the bits 10 in front in lanes 1..L-1, zero from lane L up
(30_encoding.md R37). -/
theorem placement_succ (l : LengthClass) (v : Word) (k : Fin 5) :
    (placement l v)[k.succ] =
      if k.succ.val < lengthNat l then continuationByte (v >>> (6 * (lengthNat l - 1 - k.succ.val))) else 0x00#8 := by
  simp only [continuationByte_shiftRight]
  cases l <;> fin_cases k <;> rfl

/-- The packing steps place the bits as the placement says (41_encoder.md R58, 30_encoding.md R37). -/
theorem packLanes_eq_placement {l : LengthClass} {v : Word} (hv : v.toNat < 2 ^ sequenceBits l) :
    packLanes l (headerOf l) v = placement l v := by
  have hlanes : ∀ k : Fin 6, (packLanes l (headerOf l) v)[k] = (placement l v)[k] := by
    refine Fin.cases ?_ fun k => ?_
    · exact (packLanes_header l _ v).trans (placement_header hv).symm
    · rw [placement_succ]
      split
      · next hk => exact packLanes_continuation l _ v k.succ (by simp) hk
      · next hk => exact packLanes_trailing l _ v k.succ (Nat.le_of_not_lt hk)
  exact Vector.ext fun i hi => hlanes ⟨i, hi⟩

/-- Every request writes its closed form into RESULT and leaves the rest of the state as it was (41_encoder.md R58, R64). -/
theorem exec_eq_combinationalResult (i : Instr) (s : State) :
    exec i s = .next (writeResult (combinationalResult i) s) := by
  cases i with
  | classify v =>
    change execClassify v s = _
    rw [execClassify, classification_eq_lengthOfBits, combinationalResult]
    cases lengthOfBits (bitLength v) with
    | none => rfl
    | some l => rfl
  | encode v =>
    change execEncode v s = _
    rw [execEncode, classification_eq_lengthOfBits, combinationalResult]
    cases hl : lengthOfBits (bitLength v) with
    | none => rfl
    | some l => simp only [Option.map_some, completeWith, packLanes_eq_placement (toNat_lt_of_lengthOfBits hl)]

/-- What a request answers, read off its closed form. -/
theorem exec_eq_next_iff (i : Instr) (s t : State) :
    exec i s = .next t ↔ t = writeResult (combinationalResult i) s := by
  rw [exec_eq_combinationalResult, Host.Outcome.next.injEq, eq_comm]

/-- A bit length has a length class exactly up to 31 bits (40_classifier.md R48). -/
theorem lengthOfBits_isSome_iff (n : Nat) : (lengthOfBits n).isSome = true ↔ n ≤ 31 := by
  unfold lengthOfBits
  split_ifs <;> simp <;> omega

/-- LEN after a request is fixed by the bit length of VALUE, whichever request it is (41_encoder.md R60). -/
theorem lenField_combinationalResult (i : Instr) :
    lenField (combinationalResult i) = (lengthOfBits (bitLength i.value)).map lengthCode := by
  cases i with
  | classify v =>
    simp only [combinationalResult, Instr.value]
    cases lengthOfBits (bitLength v) <;> rfl
  | encode v =>
    simp only [combinationalResult, Instr.value]
    cases lengthOfBits (bitLength v) <;> rfl

/-- Settles O35: both LENs are the length class of the same bit length, which exists up to 31 bits. -/
theorem encodeLeavesTheClassifiedLength : Obligations.EncodeLeavesTheClassifiedLength := by
  intro v s s' hv
  refine ⟨_, _, exec_eq_combinationalResult _ s, exec_eq_combinationalResult _ s', ?_, ?_⟩
  · simp only [writeResult_result, lenField_combinationalResult, Instr.value]
  · have hbits : bitLength v ≤ 31 := (le_iff_bitLength_le v 0x7FFFFFFF#32 31 rfl).mp hv
    rw [writeResult_result, lenField_combinationalResult, Option.isSome_map]
    exact (lengthOfBits_isSome_iff _).mpr hbits

end Sys2Proof.Machine
end

section
/-! What an action and a step can do to RESULT (10_state.md R10, R11, R19), and the exact invariant over the steps. -/

namespace Sys2Proof.Machine

/-- An action is a fault exactly when it is a READ of a field that holds NOVALUE (10_state.md R11). -/
theorem perform_eq_fault_iff (a : HostAction) (s t : State) (f : Field) :
    perform a s = .fault (.noValue f t) ↔
      a = .read f ∧ readField s.result f = none ∧ t = answerRead (.noValue f) s := by
  cases a with
  | request w => simp [perform, exec_eq_combinationalResult]
  | reset => simp [perform]
  | read g =>
    change hostRead g s = _ ↔ _
    rcases hostRead_cases g s with ⟨v, hv, h⟩ | ⟨hv, h⟩
    · rw [h]
      refine ⟨nofun, ?_⟩
      rintro ⟨hg, hf, -⟩
      cases hg
      cases hv.symm.trans hf
    · rw [h]
      constructor
      · intro h
        cases h
        exact ⟨rfl, hv, rfl⟩
      · rintro ⟨hg, -, ht⟩
        cases hg
        rw [ht]

/-- No action is refused: both requests have their meaning. -/
theorem perform_ne_refused (a : HostAction) (s : State) (r : Refusal) : perform a s ≠ .refused r := by
  obtain ⟨t, h | ⟨f, h⟩, -⟩ := performAll_cons a [] s
  · simp [h]
  · simp [h]

/-- RESULT after an action that completes is what the closed forms say (10_state.md R10, R20). -/
theorem result_of_perform_eq_next {a : HostAction} {s t : State} (h : perform a s = .next t) :
    t.result = resultAfter s.result a := by
  cases a with
  | request w =>
    cases (exec_eq_next_iff (decode w) s t).mp h
    rfl
  | reset =>
    cases h
    rfl
  | read f =>
    change hostRead f s = _ at h
    rcases hostRead_cases f s with ⟨v, -, hr⟩ | ⟨-, hr⟩
    · rw [hr] at h
      cases h
      rfl
    · rw [hr] at h
      cases h

/-- A READ writes nothing to RESULT (10_state.md R19). -/
theorem resultAfter_of_not_writesResult {a : HostAction} (r : Result) (h : writesResult a = false) :
    resultAfter r a = r := by
  cases a with
  | request w => cases h
  | read f => rfl
  | reset => cases h

theorem step_of_pending_nil {s : State} (hp : s.pending = []) : step s = .next s := by
  rcases step_cases s with ⟨-, hs⟩ | ⟨a, rest, hcons, -⟩
  · exact hs
  · cases hp.symm.trans hcons

theorem step_of_pending_cons {s : State} {a : HostAction} {rest : List HostAction} (hp : s.pending = a :: rest) :
    step s = perform a { s with pending := rest } := by
  rcases step_cases s with ⟨hnil, -⟩ | ⟨b, rest', hcons, hs⟩
  · cases hp.symm.trans hnil
  · cases hp.symm.trans hcons
    exact hs

/-- A step faults exactly when it takes a READ of a field that holds NOVALUE (10_state.md R11; log entry 12). -/
theorem step_eq_fault_iff (s t : State) (f : Field) :
    step s = .fault (.noValue f t) ↔
      ∃ rest, s.pending = .read f :: rest ∧ readField s.result f = none ∧
        t = { s with pending := rest, reads := s.reads ++ [.noValue f] } := by
  rcases step_cases s with ⟨hp, hs⟩ | ⟨a, rest, hp, hs⟩
  · simp [hp, hs]
  · rw [hs, hp, perform_eq_fault_iff]
    constructor
    · rintro ⟨rfl, hf, ht⟩
      exact ⟨rest, rfl, hf, ht⟩
    · rintro ⟨rest', heq, hf, ht⟩
      cases heq
      exact ⟨rfl, hf, ht⟩

theorem step_ne_refused (s : State) (r : Refusal) : step s ≠ .refused r := by
  rcases step_cases s with ⟨-, hs⟩ | ⟨a, rest, -, hs⟩
  · simp [hs]
  · rw [hs]
    exact perform_ne_refused a _ r

/-- What a step that completes can leave in RESULT (10_state.md R10). -/
theorem result_of_step_eq_next {s t : State} (h : step s = .next t) :
    (s.pending = [] ∧ t.result = s.result) ∨
    ∃ a rest, s.pending = a :: rest ∧ t.result = resultAfter s.result a := by
  rcases step_cases s with ⟨hp, hs⟩ | ⟨a, rest, hp, hs⟩
  · rw [hs] at h
    cases h
    exact .inl ⟨hp, rfl⟩
  · exact .inr ⟨a, rest, hp, result_of_perform_eq_next (s := { s with pending := rest }) (hs.symm.trans h)⟩

/-- A fault leaves RESULT as it was (10_state.md R11; log entry 12). -/
theorem result_of_step_eq_fault {s t : State} {f : Field} (h : step s = .fault (.noValue f t)) :
    t.result = s.result := by
  obtain ⟨rest, -, -, rfl⟩ := (step_eq_fault_iff s t f).mp h
  rfl

/-- Settles O46 by `step_eq_fault_iff` and `step_ne_refused`. -/
theorem onlyNovalueReadsFault : Obligations.OnlyNovalueReadsFault :=
  ⟨step_eq_fault_iff, step_ne_refused⟩

/-- Settles O47: `result_of_step_eq_next`, and an action that does not write RESULT is a READ. -/
theorem onlyRequestsAndResetWriteResult : Obligations.OnlyRequestsAndResetWriteResult := by
  intro s t h
  rcases result_of_step_eq_next h with hidle | ⟨a, rest, hp, hr⟩
  · exact .inl hidle
  · exact .inr ⟨a, rest, hp, hr, fun hw => hr.trans (resultAfter_of_not_writesResult _ hw)⟩

/-- The exact invariant by the closed forms: RESULT is NONE or the closed form of some request. -/
theorem produced_iff (s : State) : s.Produced ↔ s.result = .none ∨ ∃ i, s.result = combinationalResult i := by
  simp only [State.Produced, exec_eq_next_iff, exists_eq_left, writeResult_result]

/-- A produced RESULT stays one under every action (10_state.md R10). -/
theorem produced_of_result_eq_resultAfter {s t : State} {a : HostAction} (hs : s.Produced)
    (ht : t.result = resultAfter s.result a) : t.Produced := by
  rw [produced_iff] at hs ⊢
  cases a with
  | request w => exact .inr ⟨decode w, ht⟩
  | read f => rwa [ht]
  | reset => exact .inl ht

/-- Settles O49: a completed step leaves RESULT as it was or the closed form of the action taken, a fault as it was. -/
theorem stepKeepsResultProduced : Obligations.StepKeepsResultProduced := by
  intro s hs
  refine ⟨fun t ht => ?completes, fun f t ht => ?faults⟩
  case completes =>
    rcases result_of_step_eq_next ht with ⟨-, hr⟩ | ⟨a, rest, -, hr⟩
    · unfold State.Produced
      rwa [hr]
    · exact produced_of_result_eq_resultAfter hs hr
  case faults =>
    unfold State.Produced
    rwa [result_of_step_eq_fault ht]

/-- Settles O14: the value by `hostRead_cases`, the fault by `step_eq_fault_iff`. -/
theorem readReturnsValueOrFaults : Obligations.ReadReturnsValueOrFaults := by
  intro s f rest hp
  constructor
  · intro v hv
    rw [step_of_pending_cons hp]
    rcases hostRead_cases f { s with pending := rest } with ⟨w, hw, h⟩ | ⟨hn, -⟩
    · cases hv.symm.trans hw
      exact h
    · cases hv.symm.trans hn
  · exact fun hv => (step_eq_fault_iff s _ f).mpr ⟨rest, hp, hv, rfl⟩

/-- Settles O17 by `step_of_pending_nil`. -/
theorem idleStepChangesNothing : Obligations.IdleStepChangesNothing := fun _ => step_of_pending_nil

end Sys2Proof.Machine
end

section
/-! The format of a produced RESULT: the header's bits in lane 0, the continuation lanes and the zero lanes
(41_encoder.md R57, R61, R62). -/

namespace Sys2Proof.Machine

/-- The bits of M(L) are those from F(L) up (40_classifier.md R51). -/
theorem headerMask_getLsbD (l : LengthClass) (j : Fin 8) :
    (headerMask l).getLsbD j = decide (payloadBits l ≤ j) := by
  revert j
  cases l <;> decide

/-- H(L) has no bit outside M(L) (40_classifier.md R51). -/
theorem headerCode_and_headerMask (l : LengthClass) :
    headerCode (headerOf l) &&& headerMask l = headerCode (headerOf l) := by
  cases l <;> rfl

/-- A remaining value that fits the free bits leaves the header's bits as they are (41_encoder.md R57, R61). -/
theorem headerByte_and_headerMask {l : LengthClass} {rem : Word} (hrem : rem.toNat < 2 ^ payloadBits l) :
    headerByte (headerCode (headerOf l)) rem &&& headerMask l = headerCode (headerOf l) := by
  have hfree : rem.extractLsb 7 0 &&& headerMask l = 0#8 := by
    apply BitVec.eq_of_getLsbD_eq
    intro j hj
    rw [BitVec.getLsbD_and, headerMask_getLsbD l ⟨j, hj⟩, BitVec.getLsbD_extractLsb]
    by_cases hp : payloadBits l ≤ j
    · simp [getLsbD_of_toNat_lt rem _ j hrem hp]
    · simp [hp]
  rw [headerByte, BitVec.and_or_distrib_right, headerCode_and_headerMask, hfree, BitVec.or_zero]

/-- A continuation byte carries the bits 10 in front (41_encoder.md R62). -/
theorem continuationByte_and_C0 (rem : Word) : continuationByte rem &&& 0xC0#8 = 0x80#8 := by
  have h : (0b10#2 ++ rem.extractLsb 5 0) &&& (0b11#2 ++ 0#6) =
      (0b10#2 &&& 0b11#2) ++ (rem.extractLsb 5 0 &&& 0#6) := BitVec.and_append
  rw [BitVec.and_zero] at h
  rw [continuationByte_eq_append]
  exact h

/-- A packed sequence keeps its format: the header under its mask, the bits 10 in front of lanes 1..L-1, zeros from lane L
up (41_encoder.md R61, R62, 10_state.md R13). -/
theorem packLanes_inFormat {l : LengthClass} {v : Word} (hv : v.toNat < 2 ^ sequenceBits l) :
    lanesInFormat l (packLanes l (headerOf l) v) = true := by
  simp only [lanesInFormat, Bool.and_eq_true, beq_iff_eq, List.all_eq_true]
  constructor
  · rw [packLanes_header, headerByte_and_headerMask (remaining_lt hv)]
  · intro k _
    split
    · rfl
    · next hk =>
      split
      · next hl =>
        rw [beq_iff_eq, packLanes_continuation l _ v k (Nat.one_le_iff_ne_zero.mpr hk) hl, continuationByte_and_C0]
      · next hl => rw [beq_iff_eq, packLanes_trailing l _ v k (Nat.le_of_not_lt hl)]

/-- Every request leaves a RESULT whose parts agree (40_classifier.md R44, 41_encoder.md R61, R62). -/
theorem combinationalResult_inFormat (i : Instr) : resultInFormat (combinationalResult i) = true := by
  cases i with
  | classify v =>
    simp only [combinationalResult]
    cases lengthOfBits (bitLength v) with
    | none => rfl
    | some l => exact beq_self_eq_true _
  | encode v =>
    simp only [combinationalResult]
    cases hl : lengthOfBits (bitLength v) with
    | none => rfl
    | some l =>
      have hv := toNat_lt_of_lengthOfBits hl
      change lanesInFormat l (placement l v) = true
      rw [← packLanes_eq_placement hv]
      exact packLanes_inFormat hv

/-- Settles O51: NONE is in format, and so is the closed form of every request. -/
theorem producedResultsAreInFormat : Obligations.ProducedResultsAreInFormat := by
  intro s hs
  rcases (produced_iff s).mp hs with h | ⟨i, h⟩
  · rw [State.InFormat, h]
    rfl
  · rw [State.InFormat, h]
    exact combinationalResult_inFormat i

/-- Settles O50: the reset state is produced, as NONE, and what is produced is in format. -/
theorem resetMeetsTheInvariants : Obligations.ResetMeetsTheInvariants := by
  have hproduced : State.reset.Produced := .inl rfl
  exact ⟨producedResultsAreInFormat State.reset hproduced, hproduced⟩

end Sys2Proof.Machine
end

section
/-! The fields of RESULT in each of its four forms, and the codes they show (10_state.md R12, R14, 30_encoding.md R34). -/

namespace Sys2Proof.Machine

/-- In NONE only KIND has a value (10_state.md R12, R20). -/
theorem readField_none_eq_none {f : Field} (hf : f ≠ .kind) : readField .none f = none := by
  cases f with
  | kind => exact absurd rfl hf
  | status => rfl
  | len => rfl
  | hdr => rfl
  | lane i => rfl

/-- Settles O10: the fields by `readField_none_eq_none`, the host's reset by `hostReset_result`. -/
theorem resetLeavesResultNone : Obligations.ResetLeavesResultNone :=
  ⟨rfl, rfl, fun _ => readField_none_eq_none, hostReset_result⟩

theorem toNat_lengthCode (l : LengthClass) : (lengthCode l).toNat = lengthNat l := by
  cases l <;> rfl

/-- Settles O12, one case per form of RESULT; what a field of a given form holds is its definition. -/
theorem fieldsOfEachForm : Obligations.FieldsOfEachForm := by
  refine ⟨⟨rfl, toNat_lengthCode⟩, ⟨rfl, fun f => readField_none_eq_none⟩, ?cls, ?enc, ?ovf⟩
  case cls => exact fun l h => ⟨rfl, rfl, rfl, rfl, fun _ => rfl⟩
  case enc => exact fun l b => ⟨rfl, rfl, rfl, rfl, fun _ => rfl⟩
  case ovf =>
    intro k
    refine ⟨?_, rfl, rfl, rfl, fun _ => rfl⟩
    cases k <;> rfl

theorem opKindCode_ne_three (k : OpKind) : opKindCode k ≠ 3#2 := by
  cases k <;> decide

theorem kindCode_ne_three (r : Result) : kindCode r ≠ 3#2 := by
  cases r with
  | none => decide
  | cls l h => exact opKindCode_ne_three .classify
  | enc l b => exact opKindCode_ne_three .encode
  | ovf k => exact opKindCode_ne_three k

/-- A KIND other than 3 is that of NONE or of an operation that overflowed (30_encoding.md R34). -/
theorem exists_kindCode_eq {c : BitVec 2} (hc : c ≠ 3#2) : ∃ r, kindCode r = c := by
  have htable : ∀ c : BitVec 2, c ≠ 3#2 → c = 0#2 ∨ c = 1#2 ∨ c = 2#2 := by decide
  rcases htable c hc with rfl | rfl | rfl
  · exact ⟨.none, rfl⟩
  · exact ⟨.ovf .classify, rfl⟩
  · exact ⟨.ovf .encode, rfl⟩

theorem exists_statusCode_eq_some (c : BitVec 1) : ∃ r, statusCode r = some c := by
  rcases BitVec.eq_zero_or_eq_one c with rfl | rfl
  · exact ⟨.cls .one .x00, rfl⟩
  · exact ⟨.ovf .classify, rfl⟩

/-- The LEN codes are those of 1..6: neither 0 nor 7 (10_state.md R14). -/
theorem lengthCode_ne (l : LengthClass) : lengthCode l ≠ 0#3 ∧ lengthCode l ≠ 7#3 := by
  cases l <;> decide

theorem lengthCode_ne_of_lenField_eq_some {r : Result} {c : LenCode} (h : lenField r = some c) :
    c ≠ 0#3 ∧ c ≠ 7#3 := by
  cases r with
  | none => cases h
  | cls l hd =>
    cases h
    exact lengthCode_ne l
  | enc l b =>
    cases h
    exact lengthCode_ne l
  | ovf k => cases h

theorem exists_lenField_eq_some {c : LenCode} (h0 : c ≠ 0#3) (h7 : c ≠ 7#3) : ∃ r, lenField r = some c := by
  have htable : ∀ c : LenCode, c ≠ 0#3 → c ≠ 7#3 → ∃ l ∈ lengthClasses, lengthCode l = c := by decide
  obtain ⟨l, -, rfl⟩ := htable c h0 h7
  exact ⟨.cls l .x00, rfl⟩

/-- The six header bytes are those of the six length classes (40_classifier.md R44). -/
theorem mem_headerBytes_iff (c : Byte) :
    c ∈ [0x00#8, 0xC0#8, 0xE0#8, 0xF0#8, 0xF8#8, 0xFC#8] ↔ ∃ l ∈ lengthClasses, headerCode (headerOf l) = c :=
  List.mem_map (f := fun l => headerCode (headerOf l)) (l := lengthClasses)

theorem mem_headerBytes_of_hdrField_eq_some {r : Result} {c : Byte} (h : hdrField r = some c) :
    c ∈ [0x00#8, 0xC0#8, 0xE0#8, 0xF0#8, 0xF8#8, 0xFC#8] := by
  cases r with
  | none => cases h
  | cls l hd =>
    cases h
    cases hd <;> decide
  | enc l b => cases h
  | ovf k => cases h

theorem exists_hdrField_eq_some {c : Byte} (hc : c ∈ [0x00#8, 0xC0#8, 0xE0#8, 0xF0#8, 0xF8#8, 0xFC#8]) :
    ∃ r, hdrField r = some c := by
  obtain ⟨l, -, rfl⟩ := (mem_headerBytes_iff c).mp hc
  exact ⟨.cls l (headerOf l), rfl⟩

/-- Settles O13: what each form shows is the code of its kind, length class or header, and each code of the tables is
shown by the form that holds it. -/
theorem fieldCodesStayInTheirTables : Obligations.FieldCodesStayInTheirTables :=
  ⟨kindCode_ne_three, fun _ _ => lengthCode_ne_of_lenField_eq_some, fun _ _ => mem_headerBytes_of_hdrField_eq_some,
    fun _ => exists_kindCode_eq, exists_statusCode_eq_some, fun _ => exists_lenField_eq_some,
    fun _ => exists_hdrField_eq_some⟩

end Sys2Proof.Machine
end

section
/-! The host's actions in order (20_memory.md R25 to R27): a step takes one action, the READs behind a request see its
outcome, and a request hides what was done before it. -/

namespace Sys2Proof.Machine

/-- Performing an action changes nothing of the actions that wait behind it. -/
theorem pending_of_perform_eq_next {a : HostAction} {s t : State} (h : perform a s = .next t) :
    t.pending = s.pending := by
  cases a with
  | request w =>
    rw [(exec_eq_next_iff (decode w) s t).mp h, writeResult_pending]
  | reset =>
    cases h
    rfl
  | read f =>
    change hostRead f s = _ at h
    rcases hostRead_cases f s with ⟨v, -, hr⟩ | ⟨-, hr⟩
    · rw [hr] at h
      cases h
      rfl
    · rw [hr] at h
      cases h

/-- A step takes exactly the first waiting action (20_memory.md R26). -/
theorem pending_of_step_eq_next {s t : State} (h : step s = .next t) : t.pending = s.pending.tail := by
  rcases step_cases s with ⟨hp, hs⟩ | ⟨a, rest, hp, hs⟩
  · rw [hs] at h
    cases h
    rw [hp, List.tail_nil]
  · rw [hp, List.tail_cons]
    exact pending_of_perform_eq_next (hs.symm.trans h)

/-- A waiting request is performed by one step, which leaves its closed form in RESULT. -/
theorem step_of_pending_request {s : State} {w : RequestWord} {rest : List HostAction}
    (hp : s.pending = .request w :: rest) :
    step s = .next { s with result := combinationalResult (decode w), pending := rest } :=
  (step_of_pending_cons hp).trans (exec_eq_combinationalResult (decode w) _)

/-- A waiting READ of a field that has a value is performed by one step, which answers the value. -/
theorem step_of_pending_read {s : State} {f : Field} {v : FieldValue} {rest : List HostAction}
    (hp : s.pending = .read f :: rest) (hv : readField s.result f = some v) :
    step s = .next { s with pending := rest, reads := s.reads ++ [.value v] } :=
  (readReturnsValueOrFaults s f rest hp).1 v hv

/-- READs of fields that have values run one a step, leave RESULT as it was and answer the values in order. -/
theorem core_run_reads (fs : List Field) (rest : List HostAction) : ∀ (s : State) (vs : List FieldValue),
    s.pending = fs.map .read ++ rest → fs.mapM (readField s.result) = some vs →
    (core.run fs.length s : Host.Outcome State Fault Refusal) =
      .next { s with pending := rest, reads := s.reads ++ vs.map .value } := by
  induction fs with
  | nil =>
    intro s vs hp hvs
    cases hvs
    cases hp
    simp [core_run_zero]
  | cons f fs ih =>
    intro s vs hp hvs
    obtain ⟨v, hv, us, hus, rfl⟩ : ∃ v, readField s.result f = some v ∧
        ∃ us, fs.mapM (readField s.result) = some us ∧ v :: us = vs := by
      simpa [List.mapM_cons, Option.bind_eq_some_iff] using hvs
    have hrest := ih { s with pending := fs.map .read ++ rest, reads := s.reads ++ [.value v] } us rfl hus
    refine (core_run_next fs.length s _ (step_of_pending_read hp hv)).trans (hrest.trans ?_)
    rw [List.append_assoc, List.map_cons, List.singleton_append]

/-- Settles O18: the first step performs the request, `core_run_reads` the READs behind it. -/
theorem actionsPerformedInOrder : Obligations.ActionsPerformedInOrder := by
  refine ⟨fun s t => pending_of_step_eq_next, ?_⟩
  intro s w fs vs rest hp hvs
  rw [core_run_next _ _ _ (step_of_pending_request hp)]
  exact core_run_reads fs rest _ vs rfl hvs

/-- A list that ends in a request leaves that request's closed form in RESULT, whatever was performed before it
(log entry 12 for the READs that fault on the way). -/
theorem result_of_performAll_append_request {as : List HostAction} {w : RequestWord} {s t : State}
    (h : performAll (as ++ [.request w]) s = .next t) : t.result = combinationalResult (decode w) := by
  obtain ⟨u, -, hsplit⟩ := performAll_append [.request w] as s
  have hlast : performAll [.request w] u = .next (writeResult (combinationalResult (decode w)) u) := by
    simp only [performAll, perform, exec_eq_combinationalResult]
  cases h.symm.trans (hsplit.trans hlast)
  rfl

/-- Settles O52: both end states hold the closed form of the last request. -/
theorem earlierActionsLeaveNoTrace : Obligations.EarlierActionsLeaveNoTrace := by
  intro as bs w s s' t t' hs ht
  rw [result_of_performAll_append_request hs, result_of_performAll_append_request ht]

/-- Settles O15: the first READ leaves RESULT as it was, so the second answers the same value. -/
theorem repeatedReadGivesSameAnswer : Obligations.RepeatedReadGivesSameAnswer := by
  intro s f v rest hp hv
  have hsecond :=
    step_of_pending_read (s := { s with pending := .read f :: rest, reads := s.reads ++ [.value v] }) rfl hv
  refine ⟨_, step_of_pending_read hp hv, rfl, hsecond.trans ?_⟩
  rw [List.append_assoc, List.singleton_append]

end Sys2Proof.Machine
end

section
/-! The request word (30_encoding.md R30 to R33): the encoder and the decoder undo each other, the raw reader reads every
request word, and every one of them completes. The assembler's lines give request words (R40, R41). -/

namespace Sys2Proof.Machine

/-- Settles O1: the decoder branches on OP alone. -/
theorem decoderFollowsOpTable : Obligations.DecoderFollowsOpTable := by
  intro w
  constructor
  · intro hop
    rw [decode, requestOp, hop]
    rfl
  · intro hop
    rw [decode, requestOp, hop]
    rfl

theorem decode_encodeRequest (i : Instr) : decode (encodeRequest i) = i := by
  cases i with
  | classify v => rw [encodeRequest, decode, requestOp_makeRequest, requestValue_makeRequest]; rfl
  | encode v => rw [encodeRequest, decode, requestOp_makeRequest, requestValue_makeRequest]; rfl

/-- A request word is its OP and its VALUE put together (30_encoding.md R30). -/
theorem makeRequest_requestValue {w : RequestWord} {op : BitVec 1} (hop : requestOp w = op.getLsbD 0) :
    makeRequest op (requestValue w) = w := by
  apply BitVec.eq_of_getLsbD_eq
  intro j hj
  rw [makeRequest_getLsbD]
  split
  · next hlow =>
    rw [requestValue, BitVec.getLsbD_extractLsb]
    simp only [Nat.zero_add, Bool.and_eq_right_iff_imp, decide_eq_true_eq]
    omega
  · next hhigh =>
    obtain rfl : j = 32 := by omega
    exact hop.symm

theorem encodeRequest_decode (w : RequestWord) : encodeRequest (decode w) = w := by
  cases hop : requestOp w with
  | false => rw [decode, hop]; exact makeRequest_requestValue (op := 0#1) hop
  | true => rw [decode, hop]; exact makeRequest_requestValue (op := 1#1) hop

/-- The raw reader reads the number of a request word as that word, at every width that holds it (30_encoding.md R30). -/
theorem requestOfBits_toNat {nbits : Nat} (hn : 33 ≤ nbits) (r : RequestWord) : requestOfBits nbits r.toNat = .ok r := by
  have hmod : r.toNat % 2 ^ nbits = r.toNat :=
    Nat.mod_eq_of_lt (r.isLt.trans_le (Nat.pow_le_pow_right (by decide) hn))
  rcases requestOfBits_cases nbits r.toNat with ⟨-, r', hr', h⟩ | ⟨hwide, -⟩
  · rw [h, BitVec.eq_of_toNat_eq (hr'.trans hmod)]
  · rw [hmod] at hwide
    exact absurd r.isLt (Nat.not_lt.mpr hwide)

/-- What an opcode-table word decodes to is the decoded request word that the raw reader reads. -/
theorem decodeTableWord_eq_some_iff (nbits w : Nat) (i : Instr) :
    decodeTableWord nbits w = some i ↔ ∃ r, requestOfBits nbits w = .ok r ∧ decode r = i := by
  unfold decodeTableWord decodeBits
  cases requestOfBits nbits w with
  | ok r => simp
  | error e => simp

/-- Settles O3: `decode_encodeRequest`, `encodeRequest_decode`, and the raw reader by `requestOfBits_toNat`. -/
theorem encodeAndDecodeAreInverse : Obligations.EncodeAndDecodeAreInverse := by
  refine ⟨decode_encodeRequest, encodeRequest_decode, fun i nbits hn => ?_⟩
  exact (decodeTableWord_eq_some_iff _ _ _).mpr ⟨_, requestOfBits_toNat hn _, decode_encodeRequest i⟩

/-- Settles O5: the two cases of the raw reader; the request read has the word that was read. -/
theorem rawBitsReadExactlyWhenTheyFit : Obligations.RawBitsReadExactlyWhenTheyFit := by
  intro nbits w
  rcases requestOfBits_cases nbits w with ⟨hfits, r, hr, h⟩ | ⟨hwide, h⟩
  · refine ⟨fun _ => ⟨decode r, ?_, ?_⟩, fun hwide => absurd hfits (Nat.not_lt.mpr hwide)⟩
    · rw [decodeBits, h]
    · rw [encodeRequest_decode, hr]
  · refine ⟨fun hfits => absurd hfits (Nat.not_lt.mpr hwide), fun _ => ?_⟩
    rw [decodeBits, h]

/-- A value with bit 31 set has no length class (40_classifier.md R45, R48). -/
theorem lengthOfBits_eq_none {v : Word} (hv : v.getLsbD 31 = true) : lengthOfBits (bitLength v) = none := by
  have hover : 0x7FFFFFFF#32 < v := (overflows_iff v).mp hv
  rw [← Option.not_isSome_iff_eq_none, lengthOfBits_isSome_iff, ← le_iff_bitLength_le v 0x7FFFFFFF#32 31 rfl]
  exact BitVec.not_le.mpr hover

/-- Bit 31 of a request word is bit 31 of its VALUE (30_encoding.md R30). -/
theorem getLsbD_31_requestValue (w : RequestWord) : (w.extractLsb 31 0).getLsbD 31 = w.getLsbD 31 := by
  rw [BitVec.getLsbD_extractLsb]
  rfl

/-- Settles O6: every request writes its closed form, which has no length class when bit 31 of VALUE is set. -/
theorem everyRequestWordIsLegal : Obligations.EveryRequestWordIsLegal := by
  intro w s
  have hnone : w.getLsbD 31 = true → lengthOfBits (bitLength (w.extractLsb 31 0)) = none := fun h31 =>
    lengthOfBits_eq_none ((getLsbD_31_requestValue w).trans h31)
  obtain ⟨hclassify, hencode⟩ := decoderFollowsOpTable w
  refine ⟨_, exec_eq_combinationalResult (decode w) s, fun h31 hop => ?_, fun h31 hop => ?_⟩
  · rw [writeResult_result, hclassify hop, combinationalResult, hnone h31]
  · rw [writeResult_result, hencode hop, combinationalResult, hnone h31]

/-- Settles O16: what waits first is performed (`step_of_pending_cons`), and a placed request waits first. -/
theorem stepRunsDecodedRequest : Obligations.StepRunsDecodedRequest := by
  refine ⟨fun s w rest hp => step_of_pending_cons hp, fun s nbits w i hi => ?_⟩
  obtain ⟨r, hr, rfl⟩ := (decodeTableWord_eq_some_iff nbits w i).mp hi
  have hplace : s.withFetchWord nbits w = placeRequest r s := by rw [State.withFetchWord, placeBits, hr]
  rw [hplace, step_of_pending_cons (placeRequest_pending r s)]
  rfl

/-- Settles O7: the literal is read as its number, and the word (OP, VALUE) is the one the encoder gives. -/
theorem assemblerEmitsOpAndValue : Obligations.AssemblerEmitsOpAndValue := by
  intro l hdigits hrange
  have hok : literalOk l = true := by simp [literalOk, literalInRange, hdigits, hrange]
  rcases assembleLiteral_cases l with ⟨-, v, hv, h⟩ | ⟨hbad, -⟩
  · refine ⟨v, hv, ?_, decode_encodeRequest (.classify v), ?_, decode_encodeRequest (.encode v)⟩
    · rw [assemble, h]
      rfl
    · rw [assemble, h]
      rfl
  · cases hok.symm.trans hbad

theorem literalOk_iff_assembleLiteral_ok (l : Literal) : literalOk l = true ↔ ∃ v, assembleLiteral l = .ok v := by
  rcases assembleLiteral_cases l with ⟨hok, v, -, h⟩ | ⟨hbad, e, h⟩
  · simp [hok, h]
  · simp [hbad, h]

theorem asmFieldOk_iff_assembleField_ok (f : AsmField) : asmFieldOk f = true ↔ ∃ g, assembleField f = .ok g := by
  cases f with
  | byte i =>
    by_cases hi : i < 6
    · simp [asmFieldOk, assembleField, hi]
    · simp [asmFieldOk, assembleField, hi]
  | kind => exact iff_of_true rfl ⟨.kind, rfl⟩
  | status => exact iff_of_true rfl ⟨.status, rfl⟩
  | len => exact iff_of_true rfl ⟨.len, rfl⟩
  | hdr => exact iff_of_true rfl ⟨.hdr, rfl⟩

theorem exists_map_eq_ok_iff {ε α β : Type} (x : Except ε α) (f : α → β) :
    (∃ b, x.map f = .ok b) ↔ ∃ a, x = .ok a := by
  cases x with
  | ok a => simp [Except.map]
  | error e => simp [Except.map]

/-- The assembler takes exactly the lines that meet the check (30_encoding.md R40; log entry 6). -/
theorem asmLineOk_iff_assemble_ok (a : AsmLine) : asmLineOk a = true ↔ ∃ act, assemble a = .ok act := by
  cases a with
  | classify l => exact (literalOk_iff_assembleLiteral_ok l).trans (exists_map_eq_ok_iff _ _).symm
  | encode l => exact (literalOk_iff_assembleLiteral_ok l).trans (exists_map_eq_ok_iff _ _).symm
  | read f => exact (asmFieldOk_iff_assembleField_ok f).trans (exists_map_eq_ok_iff _ _).symm
  | reset => exact iff_of_true rfl ⟨.reset, rfl⟩

theorem assembleLiteral_outOfRange {l : Literal} (hdigits : literalHasDigits l = true)
    (hrange : 0xFFFFFFFF < literalValue l) : assembleLiteral l = .error .literalOutOfRange := by
  have hout : ¬ literalInRange l = true := by simpa [literalInRange] using hrange
  rw [assembleLiteral, if_pos hdigits, if_neg hout]

/-- Settles O8 by `asmLineOk_iff_assemble_ok` and `assembleLiteral_outOfRange`. -/
theorem assemblerRefusesIllFormedLines : Obligations.AssemblerRefusesIllFormedLines := by
  refine ⟨asmLineOk_iff_assemble_ok, fun l hdigits hrange => ?_⟩
  have h := assembleLiteral_outOfRange hdigits hrange
  constructor
  · rw [assemble, h]
    rfl
  · rw [assemble, h]
    rfl

end Sys2Proof.Machine
end

section
/-! What the bytes of a sequence tell (30_encoding.md R38, R39): the leading ones of byte 0 give the length, and the byte
values and overlong forms that no sequence holds. -/

namespace Sys2Proof.Machine

/-- ENCODE leaves an ENC result exactly for a value with a length class: that class, and the packed lanes. -/
theorem exec_encode_eq_enc_iff (v : Word) (s : State) (l : LengthClass) (b : Lanes) :
    exec (.encode v) s = .next { s with result := .enc l b } ↔
      lengthOfBits (bitLength v) = some l ∧ b = packLanes l (headerOf l) v := by
  have hresult : exec (.encode v) s = .next { s with result := .enc l b } ↔
      combinationalResult (.encode v) = .enc l b := by
    rw [exec_eq_combinationalResult, Host.Outcome.next.injEq]
    exact ⟨congrArg State.result, fun h => by rw [h]; rfl⟩
  rw [hresult, combinationalResult]
  cases hl : lengthOfBits (bitLength v) with
  | none => simp
  | some l' =>
    change Result.enc l' (placement l' v) = _ ↔ _
    rw [← packLanes_eq_placement (toNat_lt_of_lengthOfBits hl)]
    constructor
    · intro h
      cases h
      exact ⟨rfl, rfl⟩
    · rintro ⟨h, rfl⟩
      cases h
      rfl

/-- Two bytes that agree from bit m up, where bit m is 0, have the same leading ones. -/
theorem leadingOnesFrom_congr {b h : Byte} {m n : Nat} (hm : m < n) (hclear : h.getLsbD m = false)
    (hagree : ∀ j, m ≤ j → j < n → b.getLsbD j = h.getLsbD j) : leadingOnesFrom b n = leadingOnesFrom h n := by
  induction n with
  | zero => omega
  | succ n ih =>
    rw [leadingOnesFrom, leadingOnesFrom, hagree n (by omega) n.lt_succ_self]
    rcases Nat.lt_succ_iff_lt_or_eq.mp hm with hlt | rfl
    · rw [ih hlt fun j hj hjn => hagree j hj (by omega)]
    · rw [hclear]
      rfl

/-- A byte that shows a pattern under a mask of the bits from m up has the pattern's leading ones, when bit m of the
pattern is 0 (30_encoding.md R38). -/
theorem leadingOnes_of_and_mask {b h mask : Byte} {m : Nat} (hm : m < 8)
    (hmask : ∀ j, m ≤ j → j < 8 → mask.getLsbD j = true) (hb : b &&& mask = h) (hclear : h.getLsbD m = false) :
    leadingOnes b = leadingOnes h := by
  refine leadingOnesFrom_congr hm hclear fun j hj hj8 => ?_
  rw [← hb, BitVec.getLsbD_and, hmask j hj hj8, Bool.and_true]

theorem payloadBits_lt (l : LengthClass) : payloadBits l < 8 := by
  cases l <;> decide

/-- The header has the bit below its ones clear (40_classifier.md R49, R51). -/
theorem headerCode_getLsbD_payloadBits (l : LengthClass) :
    (headerCode (headerOf l)).getLsbD (payloadBits l) = false := by
  cases l <;> rfl

/-- A header has as many leading ones as its length, none for length 1 (30_encoding.md R38). -/
theorem leadingOnes_headerCode (l : LengthClass) :
    (l = .one ∧ leadingOnes (headerCode (headerOf l)) = 0) ∨
    (2 ≤ lengthNat l ∧ lengthNat l ≤ 6 ∧ leadingOnes (headerCode (headerOf l)) = lengthNat l) := by
  cases l <;> decide

/-- A byte with the header's bits under its mask has the header's leading ones. -/
theorem leadingOnes_of_and_headerMask {l : LengthClass} {b : Byte}
    (hb : b &&& headerMask l = headerCode (headerOf l)) : leadingOnes b = leadingOnes (headerCode (headerOf l)) := by
  refine leadingOnes_of_and_mask (payloadBits_lt l) (fun j hj hj8 => ?_) hb (headerCode_getLsbD_payloadBits l)
  rw [headerMask_getLsbD l ⟨j, hj8⟩, decide_eq_true hj]

theorem leadingOnes_continuationByte (rem : Word) : leadingOnes (continuationByte rem) = 1 := by
  have hmask : ∀ j, 6 ≤ j → j < 8 → (0xC0#8).getLsbD j = true := by decide
  exact leadingOnes_of_and_mask (by decide) hmask (continuationByte_and_C0 rem) rfl

/-- A lane other than 0 is a continuation byte or zero. -/
theorem packLanes_succ_cases (l : LengthClass) (h : Header) (v : Word) {k : Fin 6} (hk : 1 ≤ k.val) :
    (∃ rem, (packLanes l h v)[k] = continuationByte rem) ∨ (packLanes l h v)[k] = 0x00#8 := by
  by_cases hl : k.val < lengthNat l
  · exact .inl ⟨_, packLanes_continuation l h v k hk hl⟩
  · exact .inr (packLanes_trailing l h v k (Nat.le_of_not_lt hl))

/-- Lane 0 of a packed sequence has the leading ones of its header. -/
theorem leadingOnes_packLanes_zero {v : Word} {l : LengthClass} (hl : lengthOfBits (bitLength v) = some l) :
    leadingOnes (packLanes l (headerOf l) v)[0] = leadingOnes (headerCode (headerOf l)) := by
  rw [packLanes_header]
  exact leadingOnes_of_and_headerMask (headerByte_and_headerMask (remaining_lt (toNat_lt_of_lengthOfBits hl)))

/-- A lane other than 0 has at most one leading one. -/
theorem leadingOnes_packLanes_succ (l : LengthClass) (h : Header) (v : Word) {k : Fin 6} (hk : 1 ≤ k.val) :
    leadingOnes (packLanes l h v)[k] ≤ 1 := by
  rcases packLanes_succ_cases l h v hk with ⟨rem, hlane⟩ | hlane
  · rw [hlane, leadingOnes_continuationByte]
  · rw [hlane]
    decide

/-- Settles O40: lane 0 has the leading ones of its header, the other lanes at most one. -/
theorem outputTellsItsOwnLength : Obligations.OutputTellsItsOwnLength := by
  intro v s hv
  have hbits : bitLength v ≤ 31 := (le_iff_bitLength_le v 0x7FFFFFFF#32 31 rfl).mp hv
  obtain ⟨l, hl⟩ := Option.isSome_iff_exists.mp ((lengthOfBits_isSome_iff _).mpr hbits)
  refine ⟨l, _, (exec_encode_eq_enc_iff v s l _).mpr ⟨hl, rfl⟩, ?_⟩
  have hzero := leadingOnes_packLanes_zero hl
  have hlanes : leadingOnes (packLanes l (headerOf l) v)[0] < 7 →
      ∀ k : Fin 6, leadingOnes (packLanes l (headerOf l) v)[k] < 7 := fun h0 =>
    Fin.cases h0 fun k => (leadingOnes_packLanes_succ l _ v (k := k.succ) (by simp)).trans_lt (by decide)
  rcases leadingOnes_headerCode l with ⟨rfl, hn⟩ | ⟨h2, h6, hn⟩
  · rw [hn] at hzero
    exact ⟨fun _ => rfl, by omega, by omega, hlanes (by omega)⟩
  · rw [hn] at hzero
    exact ⟨by omega, by omega, by omega, hlanes (by omega)⟩

theorem toNat_continuationByte (rem : Word) : (continuationByte rem).toNat = 0x80 + rem.toNat % 64 := by
  have hlow : (rem.extractLsb 5 0).toNat = rem.toNat % 64 := BitVec.extractLsb_toNat 5 0 rem
  rw [continuationByte_eq_append, BitVec.toNat_append, hlow]
  exact (Nat.shiftLeft_add_eq_or_of_lt (i := 6) (Nat.mod_lt _ (by decide)) 2).symm

/-- The header's bits lie above the free ones (40_classifier.md R50). -/
theorem two_pow_payloadBits_dvd (l : LengthClass) : 2 ^ payloadBits l ∣ (headerCode (headerOf l)).toNat := by
  cases l <;> decide

/-- A remaining value that fits the free bits is added to the header (41_encoder.md R57). -/
theorem toNat_headerByte {l : LengthClass} {rem : Word} (hrem : rem.toNat < 2 ^ payloadBits l) :
    (headerByte (headerCode (headerOf l)) rem).toNat = (headerCode (headerOf l)).toNat + rem.toNat := by
  have hbyte : rem.toNat < 2 ^ 8 :=
    hrem.trans_le (Nat.pow_le_pow_right (by decide) (payloadBits_lt l).le)
  have hlow : (rem.extractLsb 7 0).toNat = rem.toNat :=
    (BitVec.extractLsb_toNat 7 0 rem).trans (Nat.mod_eq_of_lt hbyte)
  obtain ⟨a, ha⟩ := two_pow_payloadBits_dvd l
  rw [headerByte, BitVec.toNat_or, hlow, ha, Nat.two_pow_add_eq_or_of_lt hrem]

/-- The least value of a length class (40_classifier.md R44). -/
def leastValue : LengthClass → Nat
  | .one => 0
  | .two => 0x80
  | .three => 0x800
  | .four => 0x10000
  | .five => 0x200000
  | .six => 0x4000000

theorem leastValue_le {v : Word} {l : LengthClass} (hl : lengthOfBits (bitLength v) = some l) :
    leastValue l ≤ v.toNat := by
  have hge : ∀ k, ¬ bitLength v ≤ k → 2 ^ k ≤ v.toNat := fun k hk =>
    Nat.le_of_not_lt fun h => hk ((bitLength_le_iff v k).mpr h)
  unfold lengthOfBits at hl
  split_ifs at hl <;> cases hl
  · exact Nat.zero_le _
  · exact hge 7 ‹_›
  · exact hge 11 ‹_›
  · exact hge 16 ‹_›
  · exact hge 21 ‹_›
  · exact hge 26 ‹_›

/-- Lane 0 of a packed sequence is the header plus what the chunks leave. -/
theorem toNat_packLanes_zero {v : Word} {l : LengthClass} (hl : lengthOfBits (bitLength v) = some l) :
    (packLanes l (headerOf l) v)[0].toNat =
      (headerCode (headerOf l)).toNat + v.toNat / 2 ^ (6 * (lengthNat l - 1)) := by
  rw [packLanes_header, toNat_headerByte (remaining_lt (toNat_lt_of_lengthOfBits hl)), BitVec.toNat_ushiftRight,
    Nat.shiftRight_eq_div_pow]

/-- Lane 1 of a packed sequence of two or more bytes is 0x80 plus the chunk below lane 0's bits. -/
theorem toNat_packLanes_one {l : LengthClass} (h : Header) (v : Word) (hl : 2 ≤ lengthNat l) :
    (packLanes l h v)[1].toNat = 0x80 + v.toNat / 2 ^ (6 * (lengthNat l - 2)) % 64 := by
  have hlane : (packLanes l h v)[1] = _ := packLanes_continuation l h v 1 (by decide) hl
  rw [hlane, toNat_continuationByte, BitVec.toNat_ushiftRight, Nat.shiftRight_eq_div_pow]
  rfl

/-- The values that lane 0 takes for each length, both ends included (30_encoding.md R39). -/
def laneZeroRange : LengthClass → Nat × Nat
  | .one => (0x00, 0x7F)
  | .two => (0xC2, 0xDF)
  | .three => (0xE0, 0xEF)
  | .four => (0xF0, 0xF7)
  | .five => (0xF8, 0xFB)
  | .six => (0xFC, 0xFD)

theorem packLanes_zero_mem_range {v : Word} {l : LengthClass} (hl : lengthOfBits (bitLength v) = some l) :
    (laneZeroRange l).1 ≤ (packLanes l (headerOf l) v)[0].toNat ∧
    (packLanes l (headerOf l) v)[0].toNat ≤ (laneZeroRange l).2 := by
  have hleast := leastValue_le hl
  have hlt := toNat_lt_of_lengthOfBits hl
  rw [toNat_packLanes_zero hl]
  cases l <;> simp [lengthNat, leastValue, sequenceBits, payloadBits, headerCode, headerOf, laneZeroRange] at * <;> omega

/-- Lane 0 shows one length's header bits only (30_encoding.md R38). -/
theorem length_eq_of_packLanes_zero {v : Word} {l l' : LengthClass} (hl : lengthOfBits (bitLength v) = some l)
    (hbare : (packLanes l (headerOf l) v)[0] = headerCode (headerOf l')) : l = l' := by
  have hinj : Function.Injective fun l => leadingOnes (headerCode (headerOf l)) :=
    Function.LeftInverse.injective (g := fun n => lengthClasses.getD (n - 1) .one) fun l => by cases l <;> rfl
  apply hinj
  change leadingOnes (headerCode (headerOf l)) = leadingOnes (headerCode (headerOf l'))
  rw [← leadingOnes_packLanes_zero hl, hbare]

/-- No overlong form (30_encoding.md R39): from length 3 up, when lane 0 is the bare header, lane 1 holds a bit that the
shorter length cannot. -/
theorem packLanes_not_overlong {v : Word} {l l' : LengthClass} (hl : lengthOfBits (bitLength v) = some l)
    (h3 : 3 ≤ lengthNat l') (hbare : (packLanes l (headerOf l) v)[0] = headerCode (headerOf l')) :
    0x80 + 2 ^ (8 - lengthNat l') ≤ (packLanes l (headerOf l) v)[1].toNat := by
  obtain rfl := length_eq_of_packLanes_zero hl hbare
  have hleast := leastValue_le hl
  have hrem : v.toNat / 2 ^ (6 * (lengthNat l - 1)) = 0 := by
    have hzero := toNat_packLanes_zero hl
    rw [hbare] at hzero
    omega
  rw [toNat_packLanes_one _ v (by omega)]
  cases l <;> simp only [lengthNat, leastValue] at * <;> omega

theorem continuationByte_range (rem : Word) : 0x80#8 ≤ continuationByte rem ∧ continuationByte rem ≤ 0xBF#8 := by
  rw [BitVec.le_def, BitVec.le_def, toNat_continuationByte]
  exact ⟨by simp, by simp; omega⟩

/-- A lane other than 0 is at most 0xBF. -/
theorem packLanes_succ_le (l : LengthClass) (h : Header) (v : Word) {k : Fin 6} (hk : 1 ≤ k.val) :
    (packLanes l h v)[k] ≤ 0xBF#8 := by
  rcases packLanes_succ_cases l h v hk with ⟨rem, hlane⟩ | hlane
  · rw [hlane]
    exact (continuationByte_range rem).2
  · rw [hlane]
    decide

/-- The bytes that no length has in lane 0 (30_encoding.md R39). -/
theorem packLanes_zero_ne {v : Word} {l : LengthClass} (hl : lengthOfBits (bitLength v) = some l) {b : Byte}
    (hb : b = (packLanes l (headerOf l) v)[0]) :
    ¬(0x80#8 ≤ b ∧ b ≤ 0xBF#8) ∧ b ≠ 0xC0#8 ∧ b ≠ 0xC1#8 ∧ b ≠ 0xFE#8 ∧ b ≠ 0xFF#8 := by
  obtain ⟨hlo, hhi⟩ := packLanes_zero_mem_range hl
  rw [← hb] at hlo hhi
  have hgap : b.toNat ≤ 0x7F ∨ 0xC2 ≤ b.toNat ∧ b.toNat ≤ 0xFD := by
    cases l <;> simp only [laneZeroRange] at hlo hhi <;> omega
  refine ⟨?_, ?_, ?_, ?_, ?_⟩ <;> bv_omega

/-- Settles O41: lane 0 by its range, the overlong forms by `packLanes_not_overlong`, the other lanes as continuation
bytes or zeros. -/
theorem someBytesAreNeverProduced : Obligations.SomeBytesAreNeverProduced := by
  intro v s l b hexec
  obtain ⟨hl, rfl⟩ := (exec_encode_eq_enc_iff v s l b).mp hexec
  have hnever := packLanes_zero_ne hl rfl
  refine ⟨hnever, ?two, packLanes_not_overlong (l' := .three) hl (by decide),
    packLanes_not_overlong (l' := .four) hl (by decide), packLanes_not_overlong (l' := .five) hl (by decide),
    packLanes_not_overlong (l' := .six) hl (by decide), ?inner, ?lanes⟩
  case two =>
    rintro rfl
    exact packLanes_zero_mem_range hl
  case inner =>
    intro k h1 hk
    rw [packLanes_continuation l _ v k h1 hk]
    exact continuationByte_range _
  case lanes =>
    obtain ⟨-, -, -, hFE, hFF⟩ := hnever
    refine Fin.cases ⟨hFE, hFF⟩ fun k => ?_
    have hle := packLanes_succ_le l (headerOf l) v (k := k.succ) (by simp)
    exact ⟨fun h => absurd (h ▸ hle) (by decide), fun h => absurd (h ▸ hle) (by decide)⟩

end Sys2Proof.Machine
end

section
/-! The range classifier (40_classifier.md R43 to R48, R52): the range table as a partition of the domain, CLASSIFY by the
row that holds its value, and the length class by the bit length. -/

namespace Sys2Proof.Machine

theorem zero_le_word (v : Word) : 0x00000000#32 ≤ v := BitVec.not_lt.mp BitVec.not_lt_zero

theorem rowHolds_iff (r : RangeRow) (v : Word) : rowHolds r v = true ↔ r.lo ≤ v ∧ v ≤ r.hi := by
  simp [rowHolds]

/-- Two rows of the range table are the same or do not overlap (40_classifier.md R46). -/
theorem rangeTable_disjoint :
    ∀ r ∈ rangeTable, ∀ r' ∈ rangeTable, r = r' ∨ r.hi < r'.lo ∨ r'.hi < r.lo := by
  decide

theorem rangeTable_hi_le : ∀ r ∈ rangeTable, r.hi ≤ 0x7FFFFFFF#32 := by
  decide

theorem eq_of_rowHolds {r r' : RangeRow} {v : Word} (hr : r ∈ rangeTable) (hr' : r' ∈ rangeTable)
    (h : rowHolds r v = true) (h' : rowHolds r' v = true) : r = r' := by
  obtain ⟨hlo, hhi⟩ := (rowHolds_iff r v).mp h
  obtain ⟨hlo', hhi'⟩ := (rowHolds_iff r' v).mp h'
  rcases rangeTable_disjoint r hr r' hr' with heq | hbelow | habove
  · exact heq
  · bv_omega
  · bv_omega

theorem le_of_rowHolds {r : RangeRow} {v : Word} (hr : r ∈ rangeTable) (h : rowHolds r v = true) :
    v ≤ 0x7FFFFFFF#32 :=
  BitVec.le_trans ((rowHolds_iff r v).mp h).2 (rangeTable_hi_le r hr)

/-- The row that ClassTable answers holds the value: above the end of one row is from the start of the next
(40_classifier.md R44, R46). -/
theorem exists_rowHolds_classTable {v : Word} (hv : v ≤ 0x7FFFFFFF#32) :
    ∃ r ∈ rangeTable, rowHolds r v = true ∧ classTable v = (r.len, r.hdr) := by
  rcases classification_cases v with ⟨hover, -⟩ | ⟨-, -, hrow⟩
  · exact absurd hv (BitVec.not_le.mpr hover)
  · rcases hrow with ⟨h, hc⟩ | ⟨hgt, h, hc⟩ | ⟨hgt, h, hc⟩ | ⟨hgt, h, hc⟩ | ⟨hgt, h, hc⟩ | ⟨hgt, h, hc⟩
    · exact ⟨rangeTable[0], List.getElem_mem _, (rowHolds_iff _ v).mpr ⟨zero_le_word v, h⟩, hc⟩
    · exact ⟨rangeTable[1], List.getElem_mem _, (rowHolds_iff _ v).mpr ⟨hgt, h⟩, hc⟩
    · exact ⟨rangeTable[2], List.getElem_mem _, (rowHolds_iff _ v).mpr ⟨hgt, h⟩, hc⟩
    · exact ⟨rangeTable[3], List.getElem_mem _, (rowHolds_iff _ v).mpr ⟨hgt, h⟩, hc⟩
    · exact ⟨rangeTable[4], List.getElem_mem _, (rowHolds_iff _ v).mpr ⟨hgt, h⟩, hc⟩
    · exact ⟨rangeTable[5], List.getElem_mem _, (rowHolds_iff _ v).mpr ⟨hgt, h⟩, hc⟩

/-- ClassTable answers the length and header of the row that holds its value (40_classifier.md R44). -/
theorem classTable_of_rowHolds {r : RangeRow} {v : Word} (hr : r ∈ rangeTable) (h : rowHolds r v = true) :
    classTable v = (r.len, r.hdr) := by
  obtain ⟨r', hr', h', hc⟩ := exists_rowHolds_classTable (le_of_rowHolds hr h)
  rw [hc, eq_of_rowHolds hr hr' h h']

theorem classTable_of_mem_range {lo hi : Word} {l : LengthClass} {h : Header} {v : Word}
    (hrow : ⟨lo, hi, l, h⟩ ∈ rangeTable) (hlo : lo ≤ v) (hhi : v ≤ hi) : classTable v = (l, h) :=
  classTable_of_rowHolds hrow ((rowHolds_iff _ v).mpr ⟨hlo, hhi⟩)

/-- Settles O19, each range by the row of the table that has its ends. -/
theorem classTableHasTheSixRows : Obligations.ClassTableHasTheSixRows := fun v =>
  ⟨classTable_of_mem_range (by decide) (zero_le_word v), classTable_of_mem_range (by decide),
    classTable_of_mem_range (by decide), classTable_of_mem_range (by decide), classTable_of_mem_range (by decide),
    classTable_of_mem_range (by decide)⟩

/-- The rows lie end to end (40_classifier.md R46). -/
theorem rangeTable_isChain : rangeTable.IsChain fun a b => a.hi + 1#32 = b.lo := by
  decide

theorem hi_add_one_eq_lo {k : Nat} {a b : RangeRow} (ha : rangeTable[k]? = some a)
    (hb : rangeTable[k + 1]? = some b) : a.hi + 1#32 = b.lo := by
  obtain ⟨hk, rfl⟩ := List.getElem?_eq_some_iff.mp hb
  obtain ⟨-, rfl⟩ := List.getElem?_eq_some_iff.mp ha
  exact List.isChain_iff_getElem.mp rangeTable_isChain k hk

/-- Every value of the domain is held at exactly one place of the table (40_classifier.md R46). -/
theorem existsUnique_rowHolds {v : Word} (hv : v ≤ 0x7FFFFFFF#32) :
    ∃! k : Nat, ∃ r, rangeTable[k]? = some r ∧ rowHolds r v = true := by
  obtain ⟨r, hr, h, -⟩ := exists_rowHolds_classTable hv
  obtain ⟨k, hk⟩ := List.mem_iff_getElem?.mp hr
  refine ⟨k, ⟨r, hk, h⟩, ?_⟩
  rintro k' ⟨r', hk', h'⟩
  obtain rfl := eq_of_rowHolds hr (List.mem_of_getElem? hk') h h'
  have hnodup : rangeTable.Nodup := by decide
  exact (List.getElem?_inj (List.getElem?_eq_some_iff.mp hk').1 hnodup).mp (hk'.trans hk.symm)

/-- Settles O20: the ends by the table, contiguity by `rangeTable_isChain`, the one row by `existsUnique_rowHolds`. -/
theorem rangesPartitionTheDomain : Obligations.RangesPartitionTheDomain :=
  ⟨rfl, rfl, fun _ _ _ => hi_add_one_eq_lo, fun _ => existsUnique_rowHolds,
    fun _ _ hr h => ⟨le_of_rowHolds hr h, classTable_of_rowHolds hr h⟩⟩

theorem classification_eq_none_iff (v : Word) : classification v = none ↔ 0x7FFFFFFF#32 < v := by
  simp [classification, overflows_iff]

theorem classification_eq_some {v : Word} (hv : v ≤ 0x7FFFFFFF#32) : classification v = some (classTable v) := by
  have hover : ¬ overflows v = true := fun h => BitVec.not_le.mpr ((overflows_iff v).mp h) hv
  rw [classification, if_neg hover]

/-- A request leaves a given RESULT exactly when that is its closed form. -/
theorem exec_eq_next_result_iff (i : Instr) (s : State) (r : Result) :
    exec i s = .next { s with result := r } ↔ combinationalResult i = r := by
  rw [exec_eq_next_iff]
  constructor
  · exact fun h => (congrArg State.result h).symm
  · rintro rfl
    rfl

/-- The operation of a request, as an OVF result records it (10_state.md R10). -/
def requestKind : Instr → OpKind
  | .classify _ => .classify
  | .encode _ => .encode

/-- A value has no length class exactly when it lies above 0x7FFFFFFF (40_classifier.md R45, R48). -/
theorem lengthOfBits_bitLength_eq_none_iff (v : Word) : lengthOfBits (bitLength v) = none ↔ 0x7FFFFFFF#32 < v := by
  rw [← classification_eq_none_iff, classification_eq_lengthOfBits, Option.map_eq_none_iff]

/-- A request overflows exactly above 0x7FFFFFFF, with its own kind (40_classifier.md R45). -/
theorem combinationalResult_eq_ovf_iff (i : Instr) (k : OpKind) :
    combinationalResult i = .ovf k ↔ 0x7FFFFFFF#32 < i.value ∧ k = requestKind i := by
  rw [← lengthOfBits_bitLength_eq_none_iff]
  cases i with
  | classify v =>
    rw [combinationalResult, Instr.value, requestKind]
    cases lengthOfBits (bitLength v) with
    | none => simp [eq_comm]
    | some l => simp
  | encode v =>
    rw [combinationalResult, Instr.value, requestKind]
    cases lengthOfBits (bitLength v) with
    | none => simp [eq_comm]
    | some l => simp

/-- Settles O21: the test by `overflows_iff`, the outcomes of both requests by `combinationalResult_eq_ovf_iff`. -/
theorem overflowExactlyBit31 : Obligations.OverflowExactlyBit31 := by
  intro v
  have hovf : ∀ i s k, exec i s = .next { s with result := .ovf k } ↔ 0x7FFFFFFF#32 < i.value ∧ k = requestKind i :=
    fun i s k => (exec_eq_next_result_iff i s _).trans (combinationalResult_eq_ovf_iff i k)
  exact ⟨(overflows_iff v).symm, classification_eq_none_iff v, hovf (.classify v), hovf (.encode v),
    fun i s => ⟨_, exec_eq_combinationalResult i s⟩⟩

theorem exec_classify_of_overflow {v : Word} (hv : 0x7FFFFFFF#32 < v) (s : State) :
    exec (.classify v) s = .next { s with result := .ovf .classify } :=
  (exec_eq_next_result_iff _ s _).mpr ((combinationalResult_eq_ovf_iff _ _).mpr ⟨hv, rfl⟩)

/-- CLASSIFY leaves the row that holds VALUE (40_classifier.md R43, R44). -/
theorem exec_classify_of_rowHolds {r : RangeRow} {v : Word} (hr : r ∈ rangeTable) (h : rowHolds r v = true)
    (s : State) : exec (.classify v) s = .next { s with result := .cls r.len r.hdr } := by
  have hc : classification v = some (r.len, r.hdr) := by
    rw [classification_eq_some (le_of_rowHolds hr h), classTable_of_rowHolds hr h]
  change execClassify v s = _
  rw [execClassify, hc]
  rfl

/-- Settles O23: bit 31 set by `exec_classify_of_overflow`, otherwise the row of `exists_rowHolds_classTable` by
`exec_classify_of_rowHolds`. -/
theorem classifyWritesItsRowOrOverflow : Obligations.ClassifyWritesItsRowOrOverflow := by
  intro v s
  refine ⟨decode_encodeRequest (.classify v), ?_⟩
  by_cases hv : v ≤ 0x7FFFFFFF#32
  · have hclear : v.getLsbD 31 ≠ true := fun h31 => BitVec.not_le.mpr ((overflows_iff v).mp h31) hv
    obtain ⟨r, hr, h, -⟩ := exists_rowHolds_classTable hv
    refine ⟨_, exec_classify_of_rowHolds hr h s, rfl, rfl, rfl, fun _ => rfl, fun h31 => absurd h31 hclear, ?_,
      fun _ => ⟨r, hr, h⟩⟩
    intro r' hr' h'
    obtain rfl := eq_of_rowHolds hr hr' h h'
    exact ⟨rfl, rfl, rfl, rfl⟩
  · have hover : 0x7FFFFFFF#32 < v := BitVec.not_le.mp hv
    have hset : v.getLsbD 31 = true := (overflows_iff v).mpr hover
    exact ⟨_, exec_classify_of_overflow hover s, rfl, rfl, rfl, fun _ => rfl, fun _ => ⟨rfl, rfl, rfl, rfl⟩,
      fun r hr h => absurd (le_of_rowHolds hr h) hv, fun hclear => Bool.noConfusion (hclear.symm.trans hset)⟩

/-- Settles O22: each boundary value by the row that holds it. -/
theorem boundaryValuesGetTheirRow : Obligations.BoundaryValuesGetTheirRow := by
  intro s
  have hholds : ∀ r ∈ rangeTable, rowHolds r r.lo = true ∧ rowHolds r r.hi = true := by decide
  have hends : ∀ r ∈ rangeTable, exec (.classify r.lo) s = .next { s with result := .cls r.len r.hdr } ∧
      exec (.classify r.hi) s = .next { s with result := .cls r.len r.hdr } := fun r hr =>
    ⟨exec_classify_of_rowHolds hr (hholds r hr).1 s, exec_classify_of_rowHolds hr (hholds r hr).2 s⟩
  simpa only [rangeTable, List.forall_mem_cons, List.not_mem_nil, IsEmpty.forall_iff, implies_true,
    and_assoc, and_true] using hends

/-- In the domain the length class of the bit length is ClassTable's (40_classifier.md R48). -/
theorem lengthOfBits_bitLength {v : Word} (hv : v ≤ 0x7FFFFFFF#32) :
    lengthOfBits (bitLength v) = some (classTable v).1 := by
  have h := (classification_eq_lengthOfBits v).symm.trans (classification_eq_some hv)
  obtain ⟨l, hl, hc⟩ := Option.map_eq_some_iff.mp h
  rw [hl, ← hc]

/-- The least bit length of a length class (40_classifier.md R48). -/
def leastBits : LengthClass → Nat
  | .one => 0
  | .two => 8
  | .three => 12
  | .four => 17
  | .five => 22
  | .six => 27

/-- The bit lengths of a length class go from its least one to the payload of its sequence (40_classifier.md R48, R50). -/
theorem lengthOfBits_eq_some_iff (n : Nat) (l : LengthClass) :
    lengthOfBits n = some l ↔ leastBits l ≤ n ∧ n ≤ sequenceBits l := by
  unfold lengthOfBits
  cases l
  all_goals
    simp only [leastBits, sequenceBits, lengthNat, payloadBits]
    split_ifs <;> simp <;> omega

/-- Settles O24 by `lengthOfBits_eq_some_iff`, one clause per length class. -/
theorem lengthIsFixedByBitLength : Obligations.LengthIsFixedByBitLength := by
  intro v hv
  have hclass : ∀ l, leastBits l ≤ bitLength v → bitLength v ≤ sequenceBits l → (classTable v).1 = l := fun l hlo hhi =>
    Option.some.inj ((lengthOfBits_bitLength hv).symm.trans ((lengthOfBits_eq_some_iff _ l).mpr ⟨hlo, hhi⟩))
  exact ⟨hclass .one (Nat.zero_le _), hclass .two, hclass .three, hclass .four, hclass .five, hclass .six,
    (le_iff_bitLength_le v 0x7FFFFFFF#32 31 rfl).mp hv⟩

/-- What a shorter sequence can hold lies below the least value of a class (40_classifier.md R50, R52). -/
theorem two_pow_sequenceBits_le_leastValue {l l' : LengthClass} (h : lengthNat l' < lengthNat l) :
    2 ^ sequenceBits l' ≤ leastValue l := by
  revert h
  cases l <;> cases l' <;> decide

/-- Settles O28: the value fits its class by `toNat_lt_of_lengthOfBits`, and no shorter class by `leastValue_le`. -/
theorem classifierPicksTheShortestLength : Obligations.ClassifierPicksTheShortestLength := by
  intro v hv
  have hl := lengthOfBits_bitLength hv
  refine ⟨toNat_lt_of_lengthOfBits hl, fun l hfits => Nat.le_of_not_lt fun hshorter => ?_⟩
  exact absurd ((two_pow_sequenceBits_le_leastValue hshorter).trans (leastValue_le hl)) (Nat.not_le.mpr hfits)

end Sys2Proof.Machine
end

section
/-! The header pattern H(L) and its mask M(L) bit by bit (40_classifier.md R49 to R51). -/

namespace Sys2Proof.Machine

/-- The bits of H(L) are those above F(L) (40_classifier.md R49, R50). -/
theorem headerCode_getLsbD (l : LengthClass) (j : Fin 8) :
    (headerCode (headerOf l)).getLsbD j = decide (payloadBits l < j) := by
  revert j
  cases l <;> decide

/-- The leading ones of a header, the 0 that ends them and the free bits make up the byte (40_classifier.md R50). -/
theorem payloadBits_add_leadingOnes (l : LengthClass) :
    payloadBits l + leadingOnes (headerCode (headerOf l)) = 7 := by
  cases l <;> rfl

theorem headerCode_eq_headerFormula (l : LengthClass) : headerCode (headerOf l) = headerFormula l := by
  cases l <;> rfl

/-- Settles O25: the leading ones by `leadingOnes_headerCode`, the zeros below them by `headerCode_getLsbD`. -/
theorem headerHasItsClosedForm : Obligations.HeaderHasItsClosedForm := by
  intro l
  refine ⟨headerCode_eq_headerFormula l, ?ones, fun j hj => ?zeros⟩
  case ones =>
    rcases leadingOnes_headerCode l with ⟨hone, hn⟩ | ⟨h2, -, hn⟩
    · rw [if_pos hone, hn]
    · have hne : l ≠ .one := by
        rintro rfl
        exact absurd h2 (by decide)
      rw [if_neg hne, hn]
  case zeros =>
    have hsum := payloadBits_add_leadingOnes l
    have hfree : j ≤ payloadBits l := by omega
    exact (headerCode_getLsbD l ⟨j, by omega⟩).trans (decide_eq_false (Nat.not_lt.mpr hfree))

/-- Settles O26: the numbers by the definitions, the free bits of the header by `two_pow_payloadBits_dvd`. -/
theorem payloadBitsFitTheRanges : Obligations.PayloadBitsFitTheRanges := by
  have hends : ∀ r ∈ rangeTable, bitLength r.hi = sequenceBits r.len := by decide
  exact ⟨rfl, rfl, hends, fun l => Nat.mod_eq_zero_of_dvd (two_pow_payloadBits_dvd l)⟩

/-- Settles O27: the mask's bits are those from F(L) up, the header's those above F(L), and the 0 between is F(L). -/
theorem headerMaskHasItsValues : Obligations.HeaderMaskHasItsValues := by
  refine ⟨rfl, fun l j hj => ?_⟩
  have hsum := payloadBits_add_leadingOnes l
  rw [headerMask_getLsbD l ⟨j, hj⟩, headerCode_getLsbD l ⟨j, hj⟩, decide_eq_true_iff, decide_eq_true_iff]
  change payloadBits l ≤ j ↔ payloadBits l < j ∨ _
  omega

end Sys2Proof.Machine
end

section
/-! The opcode rows (40_classifier.md R43, 41_encoder.md R53): a row tests OP, and OP selects the operation. -/

namespace Sys2Proof.Machine

/-- The mask of both opcode rows keeps OP alone (30_encoding.md R30). -/
theorem and_opMask (w : RequestWord) :
    w &&& 0x100000000#33 = if requestOp w then 0x100000000#33 else 0x000000000#33 :=
  BitVec.and_twoPow w 32

theorem rowMatches_classifyRow (w : RequestWord) : rowMatches classifyRow w = !requestOp w := by
  rw [rowMatches, classifyRow, and_opMask]
  cases requestOp w <;> rfl

theorem rowMatches_encodeRow (w : RequestWord) : rowMatches encodeRow w = requestOp w := by
  rw [rowMatches, encodeRow, and_opMask]
  cases requestOp w <;> rfl

/-- Settles O4: each row matches on OP, and the decoder branches on OP. -/
theorem opcodeRowsPartitionRequestWords : Obligations.OpcodeRowsPartitionRequestWords := by
  intro w
  rw [rowMatches_classifyRow, rowMatches_encodeRow]
  obtain ⟨hclassify, hencode⟩ := decoderFollowsOpTable w
  cases hop : requestOp w with
  | false => simp [hclassify hop]
  | true => simp [hencode hop]

end Sys2Proof.Machine
end

section
/-! Steps over the waiting actions: the format of RESULT is kept (41_encoder.md R61, R62), and requests and resets run to
the end (R63, 70_reset_and_hazards.md R76). -/

namespace Sys2Proof.Machine

/-- What every action keeps of RESULT, every step keeps, in the state a fault leaves too (10_state.md R10; log entry
12). -/
theorem step_keeps_result {P : Result → Prop} (haction : ∀ r a, P r → P (resultAfter r a)) {s : State}
    (hs : P s.result) :
    (∀ t, step s = .next t → P t.result) ∧ (∀ f t, step s = .fault (.noValue f t) → P t.result) := by
  refine ⟨fun t ht => ?completes, fun f t ht => ?faults⟩
  case completes =>
    rcases result_of_step_eq_next ht with ⟨-, hr⟩ | ⟨a, rest, -, hr⟩
    · rwa [hr]
    · rw [hr]
      exact haction _ a hs
  case faults => rwa [result_of_step_eq_fault ht]

/-- An action leaves RESULT in format: as it was, a closed form or NONE. -/
theorem resultAfter_inFormat (r : Result) (a : HostAction) (hr : resultInFormat r = true) :
    resultInFormat (resultAfter r a) = true := by
  cases a with
  | request w => exact combinationalResult_inFormat (decode w)
  | read f => exact hr
  | reset => rfl

/-- Settles O48: the format of RESULT is kept by every action, hence by every step. -/
theorem stepKeepsResultInFormat : Obligations.StepKeepsResultInFormat :=
  fun _ hs => step_keeps_result (P := fun r => resultInFormat r = true) resultAfter_inFormat hs

/-- A waiting request or reset is performed by one step, which leaves its outcome in RESULT (41_encoder.md R63). -/
theorem step_of_pending_writesResult {s : State} {a : HostAction} {rest : List HostAction}
    (hp : s.pending = a :: rest) (ha : writesResult a = true) :
    step s = .next { s with result := resultAfter s.result a, pending := rest } := by
  cases a with
  | request w => exact step_of_pending_request hp
  | read f => cases ha
  | reset => exact step_of_pending_cons hp

/-- Requests and resets run one a step to the end of the list (70_reset_and_hazards.md R76). -/
theorem core_run_writes (as : List HostAction) : ∀ s : State, s.pending = as → (∀ a ∈ as, writesResult a = true) →
    (core.run as.length s : Host.Outcome State Fault Refusal) =
      .next { s with result := finalResult s.result as, pending := [] } := by
  induction as with
  | nil =>
    intro s hp _
    rw [List.length_nil, core_run_zero, finalResult, List.foldl_nil, ← hp]
  | cons a as ih =>
    intro s hp hwrites
    obtain ⟨ha, has⟩ := List.forall_mem_cons.mp hwrites
    exact (core_run_next as.length s _ (step_of_pending_writesResult hp ha)).trans (ih _ rfl has)

/-- Settles O53 by `core_run_writes`. -/
theorem requestsAndResetsRunToTheEnd : Obligations.RequestsAndResetsRunToTheEnd :=
  fun s => core_run_writes s.pending s rfl

end Sys2Proof.Machine
end

section
/-! The bit-packer (41_encoder.md R53 to R67): ENCODE by the length class of its value, what each lane holds, and the
payload bits as the value. -/

namespace Sys2Proof.Machine

/-- Settles O30 by `exec_eq_combinationalResult`. -/
theorem meaningsEqualTheClosedForms : Obligations.MeaningsEqualTheClosedForms := exec_eq_combinationalResult

/-- Bit 31 is clear exactly in the domain (40_classifier.md R45). -/
theorem getLsbD_31_eq_false_iff (v : Word) : v.getLsbD 31 = false ↔ v ≤ 0x7FFFFFFF#32 := by
  rw [← BitVec.not_lt, ← overflows_iff, overflows, Bool.not_eq_true]

/-- In the domain the header that ClassTable answers is that of its length (40_classifier.md R44). -/
theorem classTable_eq {v : Word} (hv : v ≤ 0x7FFFFFFF#32) :
    classTable v = ((classTable v).1, headerOf (classTable v).1) := by
  have h := (classification_eq_some hv).symm.trans (classification_eq_lengthOfBits v)
  rw [lengthOfBits_bitLength hv] at h
  exact Option.some.inj h

/-- In the domain ENCODE leaves the length of ClassTable and the packed lanes (41_encoder.md R53, R65). -/
theorem exec_encode_of_le {v : Word} (hv : v ≤ 0x7FFFFFFF#32) (s : State) :
    exec (.encode v) s =
      .next { s with result := .enc (classTable v).1 (packLanes (classTable v).1 (headerOf (classTable v).1) v) } :=
  (exec_encode_eq_enc_iff v s _ _).mpr ⟨lengthOfBits_bitLength hv, rfl⟩

/-- A value of the domain fits the payload bits of its length (40_classifier.md R52). -/
theorem toNat_lt_of_le {v : Word} (hv : v ≤ 0x7FFFFFFF#32) : v.toNat < 2 ^ sequenceBits (classTable v).1 :=
  toNat_lt_of_lengthOfBits (lengthOfBits_bitLength hv)

/-- A request with bit 31 of VALUE set overflows with its own kind (60_exceptions.md R66). -/
theorem combinationalResult_of_getLsbD_31 {i : Instr} (h31 : i.value.getLsbD 31 = true) :
    combinationalResult i = .ovf (requestKind i) :=
  (combinationalResult_eq_ovf_iff i _).mpr ⟨(overflows_iff i.value).mp h31, rfl⟩

theorem combinationalResult_encode_of_rowHolds {r : RangeRow} {v : Word} (hr : r ∈ rangeTable)
    (h : rowHolds r v = true) : combinationalResult (.encode v) = .enc r.len (placement r.len v) := by
  have hl := lengthOfBits_bitLength (le_of_rowHolds hr h)
  rw [classTable_of_rowHolds hr h] at hl
  rw [combinationalResult, hl]

/-- ENCODE has KIND 2 and no HDR, whether it succeeds or overflows (10_state.md R12). -/
theorem kindCode_hdrField_encode (v : Word) : kindCode (combinationalResult (.encode v)) = 2#2 ∧
    hdrField (combinationalResult (.encode v)) = none := by
  rw [combinationalResult]
  cases lengthOfBits (bitLength v) with
  | none => exact ⟨rfl, rfl⟩
  | some l => exact ⟨rfl, rfl⟩

/-- Settles O29: bit 31 set by `combinationalResult_of_getLsbD_31`, otherwise by
`combinationalResult_encode_of_rowHolds`. -/
theorem encodeWritesItsSequenceOrOverflow : Obligations.EncodeWritesItsSequenceOrOverflow := by
  intro v s
  refine ⟨decode_encodeRequest (.encode v), _, exec_eq_combinationalResult (.encode v) s, writeResult_pending _ s,
    writeResult_reads _ s, ?_⟩
  rw [writeResult_result]
  obtain ⟨hkind, hhdr⟩ := kindCode_hdrField_encode v
  refine ⟨hkind, hhdr, ?overflow, ?row, ?rowExists⟩
  case overflow =>
    intro h31
    have hovf : combinationalResult (.encode v) = .ovf .encode := combinationalResult_of_getLsbD_31 h31
    rw [hovf]
    exact ⟨rfl, rfl, rfl, fun _ => rfl⟩
  case row =>
    intro r hr h
    rw [combinationalResult_encode_of_rowHolds hr h]
    exact ⟨rfl, rfl, rfl, fun _ => rfl⟩
  case rowExists =>
    intro h31
    obtain ⟨r, hr, h, -⟩ := exists_rowHolds_classTable ((getLsbD_31_eq_false_iff v).mp h31)
    exact ⟨r, hr, h⟩

/-- What the classifier answers for a value: its length class and that length's header. -/
theorem classification_eq_some_iff (v : Word) (l : LengthClass) (h : Header) :
    classification v = some (l, h) ↔ lengthOfBits (bitLength v) = some l ∧ h = headerOf l := by
  rw [classification_eq_lengthOfBits, Option.map_eq_some_iff]
  constructor
  · rintro ⟨l', hl, heq⟩
    cases heq
    exact ⟨hl, rfl⟩
  · rintro ⟨hl, rfl⟩
    exact ⟨l, hl, rfl⟩

/-- Settles O32: the loop by `fillContinuation_rem`, the bound by `remaining_lt`, byte 0 by `packLanes_header`. -/
theorem remainingValueFitsTheHeader : Obligations.RemainingValueFitsTheHeader := by
  intro v l h hc
  obtain ⟨hl, rfl⟩ := (classification_eq_some_iff v l h).mp hc
  have hrem := remaining_lt (toNat_lt_of_lengthOfBits hl)
  exact ⟨fillContinuation_rem _ v zeroLanes, hrem, headerByte_and_headerMask hrem, packLanes_header l _ v,
    fun s => (exec_encode_eq_enc_iff v s l _).mpr ⟨hl, rfl⟩⟩

/-- Settles O33 by `exec_encode_of_le` and `packLanes_trailing`. -/
theorem trailingLanesHoldZero : Obligations.TrailingLanesHoldZero :=
  fun v s hv => ⟨_, exec_encode_of_le hv s, packLanes_trailing _ _ v⟩

/-- Settles O34: the row of length 1 holds the value, and its placement is the value in lane 0. -/
theorem asciiPassesThrough : Obligations.AsciiPassesThrough := by
  intro v s hv
  have hl : lengthOfBits (bitLength v) = some .one :=
    (lengthOfBits_eq_some_iff _ .one).mpr ⟨Nat.zero_le _, (le_iff_bitLength_le v 0x7F#32 7 rfl).mp hv⟩
  have hplace := packLanes_eq_placement (toNat_lt_of_lengthOfBits hl)
  have hzero : (placement .one v)[0].toNat = v.toNat := by
    rw [← hplace, toNat_packLanes_zero hl]
    simp [headerCode, headerOf, lengthNat]
  exact ⟨_, hzero, (exec_encode_eq_enc_iff v s .one _).mpr ⟨hl, hplace.symm⟩⟩

/-- Settles O36: lane 0 by `packLanes_header`, its header bits by `headerByte_and_headerMask`. -/
theorem headerBitsAppearInByteZero : Obligations.HeaderBitsAppearInByteZero := by
  intro v s hv
  refine ⟨_, _, _, classTable_eq hv, exec_encode_of_le hv s, ?_⟩
  rw [packLanes_header, headerByte_and_headerMask (remaining_lt (toNat_lt_of_le hv))]

/-- Settles O37 by `packLanes_continuation` and `packLanes_trailing`. -/
theorem continuationLanesHaveTheirPrefix : Obligations.ContinuationLanesHaveTheirPrefix := by
  intro v s hv
  refine ⟨_, _, rfl, exec_encode_of_le hv s, fun k h1 hk => ?_, fun k hk => packLanes_trailing _ _ v k hk.ge⟩
  rw [packLanes_continuation _ _ v k h1 hk, continuationByte_and_C0]

/-- Chunks of six bits read in order after the bits above them write the number they were cut from. -/
theorem chunksFrom_eq {b : Lanes} {x : Nat} (n : Nat) : ∀ k : Nat,
    (∀ j, k ≤ j → j < k + n → (b.getD j 0x00#8).toNat % 64 = x / 2 ^ (6 * (k + n - 1 - j)) % 64) →
    chunksFrom b k n (x / 2 ^ (6 * n)) = x := by
  induction n with
  | zero => intro k _; simp [chunksFrom]
  | succ n ih =>
    intro k hlanes
    have hstep : x / 2 ^ (6 * (n + 1)) * 64 + (b.getD k 0x00#8).toNat % 64 = x / 2 ^ (6 * n) := by
      rw [hlanes k le_rfl (by omega), show k + (n + 1) - 1 - k = n by omega, Nat.mul_add, Nat.pow_add,
        ← Nat.div_div_eq_div_mul]
      exact Nat.div_add_mod' _ 64
    rw [chunksFrom, hstep]
    refine ih (k + 1) fun j hj hjn => ?_
    rw [hlanes j (by omega) (by omega), show k + (n + 1) - 1 - j = k + 1 + n - 1 - j by omega]

/-- The low six bits of a continuation lane are its chunk of the value (30_encoding.md R37). -/
theorem packLanes_chunk (l : LengthClass) (h : Header) (v : Word) {k : Nat} (h1 : 1 ≤ k) (hk : k < lengthNat l) :
    ((packLanes l h v).getD k 0x00#8).toNat % 64 = v.toNat / 2 ^ (6 * (lengthNat l - 1 - k)) % 64 := by
  have h6 : k < 6 := hk.trans_le (lengthNat_bounds l).2
  have hlane : (packLanes l h v)[k] = continuationByte (v >>> (6 * (lengthNat l - 1 - k))) :=
    packLanes_continuation l h v ⟨k, h6⟩ h1 hk
  have hget : (packLanes l h v).getD k 0x00#8 = (packLanes l h v)[k] := by simp [Vector.getD, h6]
  rw [hget, hlane, toNat_continuationByte,
    BitVec.toNat_ushiftRight, Nat.shiftRight_eq_div_pow]
  omega

/-- The payload bits of a packed sequence write its value (41_encoder.md R58, 30_encoding.md R37). -/
theorem payloadNumber_packLanes {v : Word} {l : LengthClass} (hl : lengthOfBits (bitLength v) = some l) :
    payloadNumber l (packLanes l (headerOf l) v) = v.toNat := by
  have hzero : (packLanes l (headerOf l) v)[0].toNat % 2 ^ payloadBits l = v.toNat / 2 ^ (6 * (lengthNat l - 1)) := by
    have hrem := remaining_lt (toNat_lt_of_lengthOfBits hl)
    rw [BitVec.toNat_ushiftRight, Nat.shiftRight_eq_div_pow] at hrem
    obtain ⟨a, ha⟩ := two_pow_payloadBits_dvd l
    rw [toNat_packLanes_zero hl, ha, Nat.mul_add_mod, Nat.mod_eq_of_lt hrem]
  rw [payloadNumber, hzero]
  refine chunksFrom_eq (lengthNat l - 1) 1 fun j h1 hj => ?_
  rw [packLanes_chunk l _ v h1 (by omega), Nat.add_sub_cancel_left]

/-- Settles O38 by `payloadNumber_packLanes`. -/
theorem payloadBitsRestoreTheValue : Obligations.PayloadBitsRestoreTheValue :=
  fun _ s hv => ⟨_, _, exec_encode_of_le hv s, payloadNumber_packLanes (lengthOfBits_bitLength hv)⟩

theorem lengthNat_injective : Function.Injective lengthNat :=
  Function.LeftInverse.injective (g := fun n => lengthClasses.getD (n - 1) .one) fun l => by cases l <;> rfl

/-- The logical output, lanes 0..L-1, has L bytes (10_state.md R13). -/
theorem length_logicalOutput (l : LengthClass) (b : Lanes) : (b.toList.take (lengthNat l)).length = lengthNat l := by
  rw [List.length_take, b.length_toList]
  exact Nat.min_eq_left (lengthNat_bounds l).2

/-- The logical output fixes the lanes of a packed sequence: those behind it are zero (10_state.md R13). -/
theorem packLanes_eq_of_logicalOutput {l : LengthClass} {h h' : Header} {v w : Word}
    (heq : (packLanes l h v).toList.take (lengthNat l) = (packLanes l h' w).toList.take (lengthNat l)) :
    packLanes l h v = packLanes l h' w := by
  refine Vector.ext fun k hk => ?_
  by_cases hin : k < lengthNat l
  · have hlane := congrArg (·[k]?) heq
    simpa [List.getElem?_take, hin, hk] using hlane
  · have hout := Nat.le_of_not_lt hin
    exact (packLanes_trailing l h v ⟨k, hk⟩ hout).trans (packLanes_trailing l h' w ⟨k, hk⟩ hout).symm

/-- Settles O39: equal logical outputs have one length, hence equal lanes, and the lanes give the value back. -/
theorem encodingIsOneToOne : Obligations.EncodingIsOneToOne := by
  intro v w s s' l l' b b' hv hw heq
  obtain ⟨hl, rfl⟩ := (exec_encode_eq_enc_iff v s l b).mp hv
  obtain ⟨hl', rfl⟩ := (exec_encode_eq_enc_iff w s' l' b').mp hw
  have hlen : lengthNat l = lengthNat l' := by
    rw [← length_logicalOutput l, heq, length_logicalOutput]
  obtain rfl := lengthNat_injective hlen
  apply BitVec.eq_of_toNat_eq
  rw [← payloadNumber_packLanes hl, packLanes_eq_of_logicalOutput heq, payloadNumber_packLanes hl']

/-- Lengths below 4 hold no more than 16 bits (40_classifier.md R50). -/
theorem sequenceBits_le_of_lengthNat_lt {l : LengthClass} (hl : lengthNat l < 4) : sequenceBits l ≤ 16 := by
  revert hl
  cases l <;> decide

/-- The least value of a length class has that length (40_classifier.md R44). -/
theorem lengthOfBits_leastValue (l : LengthClass) :
    lengthOfBits (bitLength (BitVec.ofNat 32 (leastValue l))) = some l := by
  cases l <;> rfl

/-- Settles O42: every value of the domain by `exec_encode_of_le`, every length by its least value. -/
theorem noValueInTheDomainIsRejected : Obligations.NoValueInTheDomainIsRejected := by
  refine ⟨fun v s hv => ?_, fun l s => ⟨_, _, (exec_encode_eq_enc_iff _ s l _).mpr ⟨lengthOfBits_leastValue l, rfl⟩⟩⟩
  refine ⟨_, _, classTable_eq hv, exec_encode_of_le hv s, fun hlarge => ?_⟩
  by_contra hshort
  have hfits : v.toNat < 2 ^ 16 := (toNat_lt_of_le hv).trans_le
    (Nat.pow_le_pow_right (by decide) (sequenceBits_le_of_lengthNat_lt (Nat.lt_of_not_le hshort)))
  bv_omega

/-- Settles O44: every request leaves its closed form, OVF of its own kind with bit 31 set and otherwise CLS or ENC. -/
theorem requestWritesOneWholeResult : Obligations.RequestWritesOneWholeResult := by
  intro i
  refine ⟨combinationalResult i, exec_eq_combinationalResult i, fun h31 => ?overflow, fun h31 => ?success⟩
  case overflow =>
    rw [combinationalResult_of_getLsbD_31 h31]
    cases i with
    | classify v => exact ⟨rfl, rfl, rfl, rfl, rfl, fun _ => rfl⟩
    | encode v => exact ⟨rfl, rfl, rfl, rfl, rfl, fun _ => rfl⟩
  case success =>
    have hl := lengthOfBits_bitLength ((getLsbD_31_eq_false_iff i.value).mp h31)
    cases i with
    | classify v =>
      rw [Instr.value] at hl
      rw [combinationalResult, hl]
      exact ⟨rfl, rfl, rfl⟩
    | encode v =>
      rw [Instr.value] at hl
      rw [combinationalResult, hl]
      exact ⟨rfl, rfl, fun _ => rfl⟩

/-- The Overflow results of the two operations agree in every field but KIND (41_encoder.md R54). -/
theorem readField_ovf_eq (k k' : OpKind) {f : Field} (hf : f ≠ .kind) :
    readField (.ovf k) f = readField (.ovf k') f := by
  cases f with
  | kind => exact absurd rfl hf
  | status => rfl
  | len => rfl
  | hdr => rfl
  | lane i => rfl

/-- Settles O31 by `combinationalResult_of_getLsbD_31` for both requests and `readField_ovf_eq`. -/
theorem encodeOverflowFormsNoByte : Obligations.EncodeOverflowFormsNoByte := by
  intro v s h31
  have hencode : combinationalResult (.encode v) = .ovf .encode := combinationalResult_of_getLsbD_31 h31
  have hclassify : combinationalResult (.classify v) = .ovf .classify := combinationalResult_of_getLsbD_31 h31
  refine ⟨_, _, exec_eq_combinationalResult (.encode v) s, exec_eq_combinationalResult (.classify v) s, ?_⟩
  rw [writeResult_result, writeResult_result, hencode, hclassify]
  exact ⟨rfl, fun _ => rfl, by decide, fun f => readField_ovf_eq .encode .classify⟩

end Sys2Proof.Machine
end

section
/-! After an Overflow (60_exceptions.md R68): the next request runs as after reset, and a READ leaves RESULT as it was. -/

namespace Sys2Proof.Machine

/-- A step that takes a READ answers it or faults; either way RESULT and the later actions stay (20_memory.md R25; log
entry 12 for the fault). -/
theorem step_of_pending_read_keeps_result {s : State} {f : Field} {rest : List HostAction}
    (hp : s.pending = .read f :: rest) :
    ∃ t, (step s = .next t ∨ step s = .fault (.noValue f t)) ∧ t.result = s.result ∧ t.pending = rest := by
  obtain ⟨hvalue, hfault⟩ := readReturnsValueOrFaults s f rest hp
  cases hf : readField s.result f with
  | some v => exact ⟨_, .inl (hvalue v hf), rfl, rfl⟩
  | none => exact ⟨_, .inr (hfault hf), rfl, rfl⟩

/-- Settles O45: a request leaves its closed form from every state, so also from OVF(k) and from reset; a READ by
`step_of_pending_read_keeps_result`. -/
theorem overflowStopsNothing : Obligations.OverflowStopsNothing := by
  intro s k a rest hovf hp
  refine ⟨fun w ha => ?request, fun f ha => ?read⟩
  case request =>
    subst ha
    exact ⟨_, _, step_of_pending_request hp, exec_eq_combinationalResult (decode w) State.reset, rfl⟩
  case read =>
    subst ha
    rw [← hovf]
    exact step_of_pending_read_keeps_result hp

end Sys2Proof.Machine
end

section
/-! Lists of host actions (70_reset_and_hazards.md R74, R78): where a list ends, when its answers are fault-free, and
that steps over the waiting actions end where the list ends. -/

namespace Sys2Proof.Machine

/-- Settles O11: the step performs the RESET on the rest of the actions (log entry 4). -/
theorem resetActionClearsOnlyResult : Obligations.ResetActionClearsOnlyResult :=
  fun _ _ hp => step_of_pending_cons hp

/-- The state a list of actions leaves, by the closed forms: RESULT of the last request or reset, and the answers of the
READs appended (70_reset_and_hazards.md R78). `performAll_eq` ties it to the model. -/
def afterActions (as : List HostAction) (s : State) : State :=
  { s with result := finalResult s.result as, reads := s.reads ++ answersFrom s.result as }

/-- The answers of a list are those of its first action, then those of the rest from the RESULT it leaves. -/
theorem answersFrom_cons (r : Result) (a : HostAction) (as : List HostAction) :
    answersFrom r (a :: as) = answersFrom r [a] ++ answersFrom (resultAfter r a) as := by
  cases a with
  | request w => rfl
  | read f => rfl
  | reset => rfl

theorem faultFree_append (xs ys : List ReadAnswer) : faultFree (xs ++ ys) = (faultFree xs && faultFree ys) :=
  List.all_append

theorem faultFree_answersFrom_cons (r : Result) (a : HostAction) (as : List HostAction) :
    faultFree (answersFrom r (a :: as)) =
      (faultFree (answersFrom r [a]) && faultFree (answersFrom (resultAfter r a) as)) := by
  rw [answersFrom_cons, faultFree_append]

theorem faultFree_answersFrom_read (r : Result) (f : Field) :
    faultFree (answersFrom r [.read f]) = (readField r f).isSome := by
  change (isValue (answerOf r f) && true) = _
  rw [Bool.and_true]
  rcases answerOf_cases r f with ⟨v, hv, ha⟩ | ⟨hv, ha⟩
  · rw [ha, hv]
    rfl
  · rw [ha, hv]
    rfl

/-- The answer of one action is fault-free unless it is a READ of a field that holds NOVALUE (10_state.md R11). -/
theorem faultFree_answersFrom_singleton_iff (r : Result) (a : HostAction) :
    faultFree (answersFrom r [a]) = true ↔ ∀ f, a = .read f → (readField r f).isSome = true := by
  cases a with
  | request w => exact ⟨fun _ => nofun, fun _ => rfl⟩
  | read f => simp only [faultFree_answersFrom_read, HostAction.read.injEq, forall_eq']
  | reset => exact ⟨fun _ => nofun, fun _ => rfl⟩

@[simp] theorem afterActions_nil (s : State) : afterActions [] s = s := by
  simp [afterActions, finalResult, answersFrom]

theorem afterActions_cons (a : HostAction) (as : List HostAction) (s : State) :
    afterActions (a :: as) s = afterActions as (afterActions [a] s) := by
  simp only [afterActions, answersFrom_cons s.result a as, List.append_assoc, finalResult, List.foldl_cons,
    List.foldl_nil]

/-- A request or reset leaves its outcome in RESULT and answers nothing (10_state.md R10). -/
theorem afterActions_of_writesResult {a : HostAction} (ha : writesResult a = true) (s : State) :
    afterActions [a] s = writeResult (resultAfter s.result a) s := by
  have hanswers : answersFrom s.result [a] = [] := by
    cases a with
    | request w => rfl
    | read f => cases ha
    | reset => rfl
  rw [afterActions, hanswers, List.append_nil]
  rfl

/-- All that performing one action can do: it leaves the state of the closed forms, as a next state when its answer is
fault-free and in the fault "no value" otherwise (log entry 12). -/
theorem perform_cases (a : HostAction) (s : State) :
    (faultFree (answersFrom s.result [a]) = true ∧ perform a s = .next (afterActions [a] s)) ∨
    (faultFree (answersFrom s.result [a]) = false ∧ ∃ f, perform a s = .fault (.noValue f (afterActions [a] s))) := by
  cases a with
  | request w =>
    rw [afterActions_of_writesResult rfl]
    exact .inl ⟨rfl, exec_eq_combinationalResult (decode w) s⟩
  | read f =>
    rw [faultFree_answersFrom_read]
    have hend : afterActions [.read f] s = answerRead (answerOf s.result f) s := rfl
    rw [hend, answerOf]
    rcases hostRead_cases f s with ⟨v, hv, h⟩ | ⟨hv, h⟩
    · rw [hv]
      exact .inl ⟨rfl, h⟩
    · rw [hv]
      exact .inr ⟨rfl, f, h⟩
  | reset =>
    rw [afterActions_of_writesResult rfl]
    exact .inl ⟨rfl, rfl⟩

/-- A list goes on from the state its first action leaves, after a fault too (log entry 12). -/
theorem performAll_cons_eq (a : HostAction) (as : List HostAction) (s : State) :
    performAll (a :: as) s = performAll as (afterActions [a] s) := by
  rcases perform_cases a s with ⟨-, h⟩ | ⟨-, f, h⟩
  · simp only [performAll, h]
  · simp only [performAll, h]

/-- Every list of actions ends after its last one, in the state of the closed forms. -/
theorem performAll_eq (as : List HostAction) : ∀ s : State, performAll as s = .next (afterActions as s) := by
  induction as with
  | nil =>
    intro s
    rw [afterActions_nil, performAll]
  | cons a as ih =>
    intro s
    rw [performAll_cons_eq, ih, ← afterActions_cons]

/-- A property of every READ of a list, with the actions before it, holds of the first action and behind it. -/
theorem forall_read_cons_iff (P : List HostAction → Field → Prop) (a : HostAction) (as : List HostAction) :
    (∀ before f after, a :: as = before ++ .read f :: after → P before f) ↔
      (∀ f, a = .read f → P [] f) ∧ ∀ before f after, as = before ++ .read f :: after → P (a :: before) f := by
  constructor
  · intro h
    refine ⟨fun f ha => h [] f as ?_, fun before f after has => h (a :: before) f after ?_⟩
    · rw [ha, List.nil_append]
    · rw [has, List.cons_append]
  · rintro ⟨hhead, htail⟩ before f after heq
    cases before with
    | nil => exact hhead f (List.cons.inj heq).1
    | cons b before =>
      obtain ⟨rfl, has⟩ := List.cons.inj heq
      exact htail before f after has

/-- The answers of a list are fault-free exactly when every READ meets a value (10_state.md R11). -/
theorem faultFree_answersFrom_iff (as : List HostAction) : ∀ r : Result,
    faultFree (answersFrom r as) = true ↔
      ∀ before f after, as = before ++ .read f :: after → (readField (finalResult r before) f).isSome = true := by
  induction as with
  | nil => exact fun r => ⟨fun _ before f after h => absurd h (by simp), fun _ => rfl⟩
  | cons a as ih =>
    intro r
    rw [faultFree_answersFrom_cons, Bool.and_eq_true, faultFree_answersFrom_singleton_iff, ih,
      forall_read_cons_iff fun before f => (readField (finalResult r before) f).isSome = true]
    rfl

/-- Settles O55 by `performAll_eq` and `faultFree_answersFrom_iff`. -/
theorem listOfActionsEndsAfterItsLast : Obligations.ListOfActionsEndsAfterItsLast :=
  fun as s => ⟨performAll_eq as s, faultFree_answersFrom_iff as s.result⟩

/-- Steps enough for all waiting actions: they end where the list ends, or in the first fault, from whose state the rest
of the list ends there too (log entries 3 and 12). -/
theorem core_run_cases (k : Nat) : ∀ s : State, s.pending.length ≤ k →
    (faultFree (answersFrom s.result s.pending) = true ∧
      (core.run k s : Host.Outcome State Fault Refusal) = performAll s.pending { s with pending := [] }) ∨
    (faultFree (answersFrom s.result s.pending) = false ∧ ∃ f t,
      (core.run k s : Host.Outcome State Fault Refusal) = .fault (.noValue f t) ∧
      performAll t.pending { t with pending := [] } = performAll s.pending { s with pending := [] }) := by
  induction k with
  | zero =>
    intro s hk
    have hp : s.pending = [] := List.length_eq_zero_iff.mp (Nat.le_zero.mp hk)
    rw [core_run_zero, hp, performAll, ← hp]
    exact .inl ⟨by rw [hp]; rfl, rfl⟩
  | succ k ih =>
    intro s hk
    rcases step_cases s with ⟨hp, hs⟩ | ⟨a, rest, hp, hs⟩
    · rw [core_run_next k s s hs]
      exact ih s (by simp [hp])
    · rw [hp, faultFree_answersFrom_cons, performAll_cons_eq]
      rw [hp, List.length_cons, Nat.succ_le_succ_iff] at hk
      rcases perform_cases a { s with pending := rest } with ⟨hfree, hstep⟩ | ⟨hfault, f, hstep⟩
      · rw [hfree, Bool.true_and, core_run_next k s _ (hs.trans hstep)]
        exact ih (afterActions [a] { s with pending := rest }) hk
      · rw [hfault, Bool.false_and]
        exact .inr ⟨rfl, f, _, core_run_fault k s _ (hs.trans hstep), rfl⟩

/-- Settles O54 by `core_run_cases`, whose two cases are told apart by the list's answers. -/
theorem steppingPerformsTheList : Obligations.SteppingPerformsTheList := by
  intro s k hk
  rcases core_run_cases k s hk with ⟨hfree, hrun⟩ | ⟨hfault, hrun⟩
  · exact ⟨fun _ => hrun, fun hfault => (nomatch hfree.symm.trans hfault)⟩
  · exact ⟨fun hfree => (nomatch hfree.symm.trans hfault), fun _ => hrun⟩

end Sys2Proof.Machine
end

section
/-! The values that the source writes out (95_test_vectors.md): six request words and the worked examples of ENCODE, each
through the general rule it is an instance of. -/

namespace Sys2Proof.Machine

/-- The raw reader reads the number of a request's word, with bits to spare, as that request (30_encoding.md R30). -/
theorem decodeTableWord_of_toNat_encodeRequest {w : Nat} (i : Instr) (hw : (encodeRequest i).toNat = w) :
    decodeTableWord 40 w = some i := by
  obtain ⟨-, -, hread⟩ := encodeAndDecodeAreInverse
  rw [← hw]
  exact hread i 40 (by decide)

/-- Settles O2: each word is the encoding of the request beside it, which the raw reader reads back. -/
theorem spelledOutWordsDecode : Obligations.SpelledOutWordsDecode :=
  ⟨decodeTableWord_of_toNat_encodeRequest (.encode 0xA9#32) rfl,
    decodeTableWord_of_toNat_encodeRequest (.encode 0x7DEADA55#32) rfl,
    decodeTableWord_of_toNat_encodeRequest (.encode 0x80000000#32) rfl,
    decodeTableWord_of_toNat_encodeRequest (.classify 0x80000000#32) rfl,
    decodeTableWord_of_toNat_encodeRequest (.classify 0x7FFFFFFF#32) rfl,
    decodeTableWord_of_toNat_encodeRequest (.classify 0x800#32) rfl⟩

/-- ENCODE leaves the length of the row that holds VALUE and the bit placement of that length (30_encoding.md R37,
41_encoder.md R53). -/
theorem exec_encode_of_rowHolds {r : RangeRow} {v : Word} {b : Lanes} (hr : r ∈ rangeTable) (h : rowHolds r v = true)
    (hb : placement r.len v = b) (s : State) : exec (.encode v) s = .next { s with result := .enc r.len b } := by
  rw [exec_eq_next_result_iff, combinationalResult_encode_of_rowHolds hr h, hb]

theorem exec_encode_of_overflow {v : Word} (hv : 0x7FFFFFFF#32 < v) (s : State) :
    exec (.encode v) s = .next { s with result := .ovf .encode } :=
  (exec_eq_next_result_iff _ s _).mpr ((combinationalResult_eq_ovf_iff _ _).mpr ⟨hv, rfl⟩)

/-- Settles O43: each example by the row that holds its value and that row's bit placement, the last by bit 31. -/
theorem sourceExamplesEncode : Obligations.SourceExamplesEncode := fun s =>
  ⟨exec_encode_of_rowHolds (r := rangeTable[1]) (List.getElem_mem _) (by decide) (by decide) s,
    exec_encode_of_rowHolds (r := rangeTable[2]) (List.getElem_mem _) (by decide) (by decide) s,
    exec_encode_of_rowHolds (r := rangeTable[0]) (List.getElem_mem _) (by decide) (by decide) s,
    exec_encode_of_rowHolds (r := rangeTable[0]) (List.getElem_mem _) (by decide) (by decide) s,
    exec_encode_of_rowHolds (r := rangeTable[3]) (List.getElem_mem _) (by decide) (by decide) s,
    exec_encode_of_rowHolds (r := rangeTable[4]) (List.getElem_mem _) (by decide) (by decide) s,
    exec_encode_of_rowHolds (r := rangeTable[5]) (List.getElem_mem _) (by decide) (by decide) s,
    exec_encode_of_overflow (by decide) s⟩

end Sys2Proof.Machine
end
